-- ==== Sys2Proof/Word.lean ====
section
/-! DEFINITION. The data types of the datapath: 32-bit words, bytes, a four-word value and the block buffer
(spec/00_scope.md R8, R14, R16). Types only; every operation on them is in Sys2Proof/Machine/. -/

namespace Sys2Proof

/-- A 32-bit word (R8); bit 0 is its least significant bit (R14). -/
abbrev Word := BitVec 32

/-- A byte of the message, the block buffer or the tag. -/
abbrev Byte := BitVec 8

/-- A 128-bit value held as four words; word 0 is the least significant (R14).
TAG, KEY, K1, K2 and TOUT each hold one (R20). -/
@[ext]
structure Quad where
  w0 : Word
  w1 : Word
  w2 : Word
  w3 : Word
deriving DecidableEq, Repr

/-- The four words 0. -/
def Quad.zero : Quad := ⟨0, 0, 0, 0⟩

/-- The Pending Block Buffer BUF[0..15] (R25): 16 bytes. -/
abbrev Buffer := Vector Byte 16

/-- Sixteen bytes 0. -/
def Buffer.zero : Buffer := Vector.replicate 16 0

end Sys2Proof
end

