-- ==== Sys2Proof/Config.lean ====
section
/-! DEFINITION. What the build or the platform fixes, and the free values (spec/00_scope.md R7, R10, R11;
spec/20_memory.md R63; spec/93_implementation_defined.md section B). None of the constants has a body, so no
proof can learn a value of one. -/

namespace Sys2Proof

/-- The two legal round counts (R7): "8 or 12". -/
inductive Rounds where
  | eight
  | twelve
deriving DecidableEq, Repr, Inhabited

/-- The reset input's protocol (R11, D20): left to the implementation; no rule depends on it. -/
structure ResetProtocol where
  synchronous : Bool
  activeHigh  : Bool
  holdCycles  : Nat
deriving DecidableEq, Repr, Inhabited

/-- ROUNDS (R7, D2, D34): fixed when the core is built, and no default is named (log 4). -/
opaque Config.rounds : Rounds

/-- BASE (R11, D30): the bus address of register offset 0x00, the platform's choice (log 14). -/
opaque Config.base : Nat

/-- LAT_NOP (R10, D19): at least 1, no upper bound; the model has no time (log 14). -/
opaque Config.latNop : ℕ+

/-- LAT_INIT (R10, D19). -/
opaque Config.latInit : ℕ+

/-- LAT_ABSORB (R10, D19). -/
opaque Config.latAbsorb : ℕ+

/-- LAT_FINAL (R10, D19): FINAL and FINAL.K. -/
opaque Config.latFinal : ℕ+

/-- LAT_PERM (R10, D19). -/
opaque Config.latPerm : ℕ+

/-- RESET_PROTOCOL (R11, D20; log 14). -/
opaque Config.resetProtocol : ResetProtocol

/-- The free value of the n-th any-value read (R63, 93 S1): "returns any value: a model draws it freely".
Applied to the counter `draws` of State, which every such read advances (log 5). -/
opaque Config.freeRead : Nat → Word

end Sys2Proof
end

