-- ==== Sys2Proof/Syntax.lean ====
section
/-! DEFINITION. The commands of the core: one constructor per row of spec/opcode_table.json
(spec/30_encoding.md R72). The pseudo-instructions of R80 are lists of host events, Machine/Listing.lean. -/

namespace Sys2Proof

/-- A command (R72). `absorb n` carries the 3-bit count field N (R73); only n <= 4 is legal, see WellFormed. -/
inductive Instr where
  | nop
  | init
  | absorb (n : BitVec 3)
  | final
  | finalK
  | perm
deriving DecidableEq, Repr

end Sys2Proof
end

