-- ==== Sys2Proof/WellFormed.lean ====
section
/-! DEFINITION. Which terms of `Instr` are commands of the core (spec/30_encoding.md R73). -/

namespace Sys2Proof

/-- The one check the types leave open (R73): the legal values of ABSORB's N are 0, 1, 2, 3, 4;
"N = 5, 6, 7 is illegal". -/
def Instr.wf : Instr → Bool
  | .nop => true
  | .init => true
  | .absorb n => decide (n ≤ 4)
  | .final => true
  | .finalK => true
  | .perm => true

end Sys2Proof
end

