-- ==== Sys2Proof/Decode.lean ====
section
/-! DEFINITION. The decoder, total on every 32-bit word, and the encoder after it (spec/30_encoding.md R70 to R77).
A command is one 32-bit word written to CMD; the core fetches no bytes (R66), so a word is all there is to decode. -/

namespace Sys2Proof

/-- Why a word is ILLEGAL; R77 lists these causes. Each is an EILLEGAL rejection at the CMD write. -/
inductive DecodeError where
  /-- A bit of RSV, 31:8, is set (R75). -/
  | reservedBits
  /-- OP is 0x5 to 0xF (R72). -/
  | reservedOp
  /-- K = 1 outside FINAL (R74). -/
  | keepNotAllowed
  /-- N is not 0 outside ABSORB, or N > 4 in ABSORB (R73). -/
  | countNotAllowed
deriving DecidableEq, Repr

/-- OP, bits 3:0 (R71). -/
def opField (c : Word) : BitVec 4 := c.extractLsb' 0 4

/-- N, bits 6:4 (R71). -/
def countField (c : Word) : BitVec 3 := c.extractLsb' 4 3

/-- K, bit 7 (R71). -/
def keepField (c : Word) : BitVec 1 := c.extractLsb' 7 1

/-- RSV, bits 31:8 (R71). -/
def reservedField (c : Word) : BitVec 24 := c.extractLsb' 8 24

/-- The cause named for a word with RSV = 0 that no line of R76 accepts. -/
def illegalCause (op : BitVec 4) (k : BitVec 1) : DecodeError :=
  if 4 < op then .reservedOp else if k = 1 ∧ op ≠ 3 then .keepNotAllowed else .countNotAllowed

/-- The total function `decode` of R76, line by line. -/
def decode (c : Word) : Except DecodeError Instr :=
  let op := opField c
  let n := countField c
  let k := keepField c
  if reservedField c ≠ 0 then .error .reservedBits
  else if op = 0x0 ∧ n = 0 ∧ k = 0 then .ok .nop
  else if op = 0x1 ∧ n = 0 ∧ k = 0 then .ok .init
  else if op = 0x2 ∧ n ≤ 4 ∧ k = 0 then .ok (.absorb n)
  else if op = 0x3 ∧ n = 0 ∧ k = 0 then .ok .final
  else if op = 0x3 ∧ n = 0 ∧ k = 1 then .ok .finalK
  else if op = 0x4 ∧ n = 0 ∧ k = 0 then .ok .perm
  else .error (illegalCause op k)

/-- The instruction the decoder reads from a word of `nbits` bits as spec/opcode_table.json numbers them; bits from
`nbits` up are 0. There is no command longer than 32 bits (R70). -/
def decodeTableWord (nbits w : Nat) : Option Instr :=
  if 32 < nbits then none
  else match decode (BitVec.ofNat 32 (w % 2 ^ nbits)) with
    | .ok i => some i
    | .error _ => none

/-- Format C put together from its fields (R71), RSV = 0. -/
def formatC (k : BitVec 1) (n : BitVec 3) (op : BitVec 4) : Word :=
  (0 : BitVec 24) ++ k ++ n ++ op

/-- OP of a command (R72). -/
def Instr.op : Instr → BitVec 4
  | .nop => 0x0
  | .init => 0x1
  | .absorb _ => 0x2
  | .final => 0x3
  | .finalK => 0x3
  | .perm => 0x4

/-- N of a command (R73): 0 outside ABSORB. -/
def Instr.count : Instr → BitVec 3
  | .absorb n => n
  | .nop => 0
  | .init => 0
  | .final => 0
  | .finalK => 0
  | .perm => 0

/-- K of a command (R74): 1 in FINAL.K only. -/
def Instr.keep : Instr → BitVec 1
  | .finalK => 1
  | .nop => 0
  | .init => 0
  | .absorb _ => 0
  | .final => 0
  | .perm => 0

/-- The command word of a command (R71, R72, R78). -/
def encode (i : Instr) : Word := formatC i.keep i.count i.op

end Sys2Proof
end

