-- ==== Sys2Proof/Machine/State.lean ====
section
/-! DEFINITION. The state of the machine (spec/10_state.md R20 to R36), the outside world it answers to, its
outcomes and the state after reset (spec/70_reset_and_hazards.md R230). Plain data throughout. -/

namespace Sys2Proof.Machine

/-- Why the machine stops with a fault. -/
inductive Fault where
  /-- Raised by a host access at an offset outside the window 0x00 to 0x7F (R45): no register of this core is there.
  Safe: the model stops where the bus would go elsewhere (log 6). -/
  | outsideWindow (off : Nat)
deriving DecidableEq, Repr

/-- Why the model gives no meaning. -/
inductive Refusal where
  /-- Raised by an arm of `exec` whose instruction has no meaning yet (no arm does). Safe. -/
  | notModelled (mnemonic : String)
  /-- Raised by a host access that is not 4 bytes wide or not at a multiple of 4 (R58: "a model refuses such an
  access"). Safe (log 6). -/
  | undefinedAccess (off width : Nat)
deriving DecidableEq, Repr

/-- FSM (R27). -/
inductive Fsm where
  | unkeyed
  | empty
  | absorbing
  | finalized
deriving DecidableEq, Repr

/-- ERRCODE (R33, R201): the five codes that are ever recorded; "5-7: never recorded" (log 17). -/
inductive ErrCode where
  | noError
  | eillegal
  | estate
  | ebusy
  | ecount
deriving DecidableEq, Repr

/-- What PEND holds (R36): the accepted command together with the operands sampled at the CMD write (R62),
DIN for ABSORB and KEY for INIT (log 19). -/
inductive Pending where
  | nop
  | init (kin : Quad)
  | absorb (n : BitVec 3) (data : Word)
  | final
  | finalK
  | perm
deriving DecidableEq, Repr

/-- What the outside does to the core, one item at a time (R12, R79, R231; log 2). -/
inductive Event where
  /-- `MemWrite(off, width, v)` (R17). -/
  | write (off width : Nat) (v : Word)
  /-- `MemRead(off, width)` (R17). -/
  | read (off width : Nat)
  /-- WAIT (R79): the host reads STATUS again and again until BUSY reads 0 (log 13). -/
  | wait
  /-- The reset input is asserted (R230, R231; log 16). -/
  | reset
deriving DecidableEq, Repr

/-- The two agents (R12). -/
inductive Agent where
  | host
  | engine
deriving DecidableEq, Repr

/-- The machine. The first thirteen fields are the core's state, R20 and no more; `rounds` is the build parameter
ROUNDS, which no step writes (log 4); the last four are the model's own. -/
@[ext]
structure State where
  /-- TAG[0..3] (R21). -/
  tag     : Quad
  /-- KEY[0..3] (R22). -/
  key     : Quad
  /-- K1[0..3] (R23). -/
  k1      : Quad
  /-- K2[0..3] (R24). -/
  k2      : Quad
  /-- BUF[0..15] (R25). -/
  buf     : Buffer
  /-- COUNT (R26), 64 bits (R9). -/
  count   : BitVec 64
  /-- FSM (R27). -/
  fsm     : Fsm
  /-- DIN (R30). -/
  din     : Word
  /-- TOUT[0..3] (R31). -/
  tout    : Quad
  /-- BUSY (R32). -/
  busy    : Bool
  /-- ERR (R33). -/
  err     : Bool
  /-- ERRCODE (R33). -/
  errCode : ErrCode
  /-- PEND (R36); non-empty exactly when BUSY = 1. -/
  pend    : Option Pending
  /-- ROUNDS (R7, R35): not state of the core, a parameter of the build. -/
  rounds  : Rounds
  /-- What the outside does next, first item first (log 2). -/
  events  : List Event
  /-- The words host reads have returned, oldest first (log 11). -/
  got     : List Word
  /-- Which agent moves at the next moments when both can (R233; log 1). -/
  sched   : List Agent
  /-- How many any-value reads have been made (R63; log 5). -/
  draws   : Nat
deriving DecidableEq, Repr

/-- The state after reset (R230) of a core built with round count r. -/
def State.resetFor (r : Rounds) : State where
  tag := .zero
  key := .zero
  k1 := .zero
  k2 := .zero
  buf := .zero
  count := 0
  fsm := .unkeyed
  din := 0
  tout := .zero
  busy := false
  err := false
  errCode := .noError
  pend := none
  rounds := r
  events := []
  got := []
  sched := []
  draws := 0

/-- The machine right after reset (R230, R232), for whichever round count the build has (log 4). -/
def State.reset : State := State.resetFor Config.rounds

end Sys2Proof.Machine
end

