-- ==== Sys2Proof/Machine/Operands.lean ====
section
/-! DEFINITION. The operand forms: byte and word views (spec/00_scope.md R16), the bytes ABSORB takes from DIN
(spec/42_absorb.md R143), the operands PEND samples (spec/20_memory.md R62), and the register window
(spec/20_memory.md R45, R46, R58, R59). -/

namespace Sys2Proof

/-- Word j of a four-word value (R14). -/
def Quad.word (X : Quad) (j : Fin 4) : Word :=
  match j with
  | 0 => X.w0
  | 1 => X.w1
  | 2 => X.w2
  | 3 => X.w3

/-- Word j replaced. -/
def Quad.setWord (X : Quad) (j : Fin 4) (v : Word) : Quad :=
  match j with
  | 0 => { X with w0 := v }
  | 1 => { X with w1 := v }
  | 2 => { X with w2 := v }
  | 3 => { X with w3 := v }

/-- Word-by-word exclusive or (R142, R164). -/
def Quad.xor (X Y : Quad) : Quad :=
  ⟨X.w0 ^^^ Y.w0, X.w1 ^^^ Y.w1, X.w2 ^^^ Y.w2, X.w3 ^^^ Y.w3⟩

end Sys2Proof

namespace Sys2Proof.Machine

/-- Four bytes as a word, the first byte least significant (R16). -/
def wordOfBytes (b0 b1 b2 b3 : Byte) : Word :=
  b0.setWidth 32 ||| (b1.setWidth 32 <<< 8) ||| (b2.setWidth 32 <<< 16) ||| (b3.setWidth 32 <<< 24)

/-- W, the word view of 16 bytes (R16): byte 0 is the least significant byte of word 0. -/
def wordView (b : Buffer) : Quad where
  w0 := wordOfBytes b[0] b[1] b[2] b[3]
  w1 := wordOfBytes b[4] b[5] b[6] b[7]
  w2 := wordOfBytes b[8] b[9] b[10] b[11]
  w3 := wordOfBytes b[12] b[13] b[14] b[15]

/-- Byte k of a word, bits 8k+7 : 8k (R16, R59, R143). -/
def byteOf (v : Word) (k : Nat) : Byte := v.extractLsb' (8 * k) 8

/-- B, the byte view of four words (R16): byte k is byte k mod 4 of word k div 4. -/
def byteView (w : Quad) : Buffer :=
  Vector.ofFn fun k => byteOf (w.word ⟨k.val / 4, by omega⟩) (k.val % 4)

/-- The message bytes ABSORB n takes from DIN's value d (R143): d[7:0], d[15:8], ... in that order, the first n. -/
def dinBytes (d : Word) (n : Nat) : List Byte := (List.range n).map (byteOf d)

/-- The command PEND holds. -/
def Pending.instr : Pending → Instr
  | .nop => .nop
  | .init _ => .init
  | .absorb n _ => .absorb n
  | .final => .final
  | .finalK => .finalK
  | .perm => .perm

/-- What PEND takes when command i is accepted (R62): DIN for ABSORB, KEY[0..3] for INIT, as they stand now. -/
def State.sample (i : Instr) (s : State) : Pending :=
  match i with
  | .nop => .nop
  | .init => .init s.key
  | .absorb n => .absorb n s.din
  | .final => .final
  | .finalK => .finalK
  | .perm => .perm

/-- Kin, INIT's operand (R122): the key sampled in PEND. In a state whose PEND holds no INIT, which no run executes
INIT in, it is KEY, the value the CMD write would sample (log 7). -/
def State.kin (s : State) : Quad :=
  match s.pend with
  | some (.init k) => k
  | _ => s.key

/-- D, ABSORB's operand (R143): the DIN sampled in PEND; with no ABSORB in PEND it is DIN (log 7). -/
def State.absorbData (s : State) : Word :=
  match s.pend with
  | some (.absorb _ d) => d
  | _ => s.din

/-- The registers of the window (R46). -/
inductive Reg where
  | cmd
  | status
  | din
  | cfg
  | key (j : Fin 4)
  | tag (j : Fin 4)
  | k1 (j : Fin 4)
  | k2 (j : Fin 4)
  | tout (j : Fin 4)
  | countLo
  | countHi
  | reserved (j : Fin 6)
deriving DecidableEq, Repr

/-- The register map (R46), slot by slot. -/
def Reg.ofOffset (off : Nat) : Option Reg :=
  match off with
  | 0x00 => some .cmd
  | 0x04 => some .status
  | 0x08 => some .din
  | 0x0C => some .cfg
  | 0x10 => some (.key 0)
  | 0x14 => some (.key 1)
  | 0x18 => some (.key 2)
  | 0x1C => some (.key 3)
  | 0x20 => some (.tag 0)
  | 0x24 => some (.tag 1)
  | 0x28 => some (.tag 2)
  | 0x2C => some (.tag 3)
  | 0x30 => some (.k1 0)
  | 0x34 => some (.k1 1)
  | 0x38 => some (.k1 2)
  | 0x3C => some (.k1 3)
  | 0x40 => some (.k2 0)
  | 0x44 => some (.k2 1)
  | 0x48 => some (.k2 2)
  | 0x4C => some (.k2 3)
  | 0x50 => some (.tout 0)
  | 0x54 => some (.tout 1)
  | 0x58 => some (.tout 2)
  | 0x5C => some (.tout 3)
  | 0x60 => some .countLo
  | 0x64 => some .countHi
  | 0x68 => some (.reserved 0)
  | 0x6C => some (.reserved 1)
  | 0x70 => some (.reserved 2)
  | 0x74 => some (.reserved 3)
  | 0x78 => some (.reserved 4)
  | 0x7C => some (.reserved 5)
  | _ => none

/-- The offset of a register (R46), `off(reg)` of R79. -/
def Reg.offset : Reg → Nat
  | .cmd => 0x00
  | .status => 0x04
  | .din => 0x08
  | .cfg => 0x0C
  | .key j => 0x10 + 4 * j.val
  | .tag j => 0x20 + 4 * j.val
  | .k1 j => 0x30 + 4 * j.val
  | .k2 j => 0x40 + 4 * j.val
  | .tout j => 0x50 + 4 * j.val
  | .countLo => 0x60
  | .countHi => 0x64
  | .reserved j => 0x68 + 4 * j.val

/-- The register a host access reaches (R58): 4 bytes at a multiple of 4 inside the window. Any other width or alignment
is refused; an offset past the window faults (log 6). -/
def accessedReg (off width : Nat) : Host.Outcome Reg Fault Refusal :=
  if width ≠ 4 ∨ off % 4 ≠ 0 then .refused (.undefinedAccess off width)
  else match Reg.ofOffset off with
    | some r => .next r
    | none => .fault (.outsideWindow off)

/-- The bus address of byte k of the register at offset off (R59). -/
def busAddress (off k : Nat) : Nat := Config.base + off + k

/-- The offset and the byte lane at a bus address of the window (R45, R59); none outside it. -/
def busLane (a : Nat) : Option (Nat × Nat) :=
  if Config.base ≤ a ∧ a < Config.base + 128 then
    some ((a - Config.base) / 4 * 4, (a - Config.base) % 4)
  else none

end Sys2Proof.Machine
end

