-- ==== Sys2Proof/Machine/Flags.lean ====
section
/-! DEFINITION. The status fields and their codes (spec/10_state.md R27, R32 to R34; spec/20_memory.md R48;
spec/60_exceptions.md R201). The core has no arithmetic flags (R38, R100). -/

namespace Sys2Proof.Machine

/-- The value of FSM in STATUS[9:8] (R27). -/
def Fsm.code : Fsm → BitVec 2
  | .unkeyed => 0
  | .empty => 1
  | .absorbing => 2
  | .finalized => 3

/-- "A Context exists" and is not finalized: the states in which ABSORB, FINAL and FINAL.K are accepted (R29). -/
def Fsm.hasContext : Fsm → Bool
  | .unkeyed => false
  | .empty => true
  | .absorbing => true
  | .finalized => false

/-- The value of ERRCODE in STATUS[6:4] (R201). -/
def ErrCode.code : ErrCode → BitVec 3
  | .noError => 0
  | .eillegal => 1
  | .estate => 2
  | .ebusy => 3
  | .ecount => 4

/-- FILL (R34): COUNT mod 16, "it reads COUNT[3:0]". -/
def State.fill (s : State) : BitVec 4 := s.count.extractLsb' 0 4

/-- The read layout of STATUS (R48), reserved fields 0. -/
def statusLayout (busy err : Bool) (code : BitVec 3) (fsm : BitVec 2) (fill : BitVec 4) : Word :=
  (0 : BitVec 16) ++ fill ++ (0 : BitVec 2) ++ fsm ++ (0 : BitVec 1) ++ code ++ (0 : BitVec 2)
    ++ BitVec.ofBool err ++ BitVec.ofBool busy

/-- STATUS with every field at its defined value (R48). -/
def State.status (s : State) : Word :=
  statusLayout s.busy s.err s.errCode.code s.fsm.code s.fill

/-- STATUS as read while BUSY = 1 (R63): FSM and FILL are any value, taken from the free word v; BUSY, ERR and ERRCODE
are as they are (log 5). -/
def State.statusFree (s : State) (v : Word) : Word :=
  statusLayout s.busy s.err s.errCode.code (v.extractLsb' 8 2) (v.extractLsb' 12 4)

/-- Whether ABSORB n would take COUNT past 2^64 - 1 (R143, R205). -/
def State.countWouldPass (n : BitVec 3) (s : State) : Bool :=
  decide (2 ^ 64 - 1 < s.count.toNat + n.toNat)

end Sys2Proof.Machine
end

