-- ==== Sys2Proof/Machine/Ops.lean ====
section
/-! DEFINITION. The shared operations of the command interface: recording a rejection (spec/60_exceptions.md R203), the
checks of a CMD write (R205), acceptance and completion (spec/70_reset_and_hazards.md R233), reset (R230), and whose
turn it is (R233, R237). The core takes no exceptions and returns from none (R208): REJECT is its one error report. -/

namespace Sys2Proof.Machine

/-- REJECT(e) (R203): the first rejection since the last clear is recorded; nothing else changes. -/
def State.reject (e : ErrCode) (s : State) : State :=
  if s.err then s else { s with err := true, errCode := e }

/-- The error record cleared (R49). -/
def State.clearError (s : State) : State := { s with err := false, errCode := .noError }

/-- The ESTATE and ECOUNT checks of a command, in the order of R205; none when it is admissible. -/
def State.commandError (i : Instr) (s : State) : Option ErrCode :=
  match i with
  | .absorb n =>
    if !s.fsm.hasContext then some .estate else if s.countWouldPass n then some .ecount else none
  | .final => if !s.fsm.hasContext then some .estate else none
  | .finalK => if !s.fsm.hasContext then some .estate else none
  | .nop => none
  | .init => none
  | .perm => none

/-- Acceptance (R205, R233): PEND takes the command with its operands and BUSY becomes 1. -/
def State.accept (i : Instr) (s : State) : State :=
  { s with pend := some (s.sample i), busy := true }

/-- CHECK(c) of R205: what a host write of c to CMD does (R47). -/
def State.presentCommand (c : Word) (s : State) : State :=
  if s.busy then s.reject .ebusy
  else match decode c with
    | .error _ => s.reject .eillegal
    | .ok i =>
      match s.commandError i with
      | some e => s.reject e
      | none => s.accept i

/-- The end of an engine step (R36, R233): PEND is emptied and BUSY becomes 0. -/
def State.complete (s : State) : State := { s with pend := none, busy := false }

/-- f applied to the next state, where there is one. -/
def mapNext (f : State → State) (o : Host.Outcome State Fault Refusal) : Host.Outcome State Fault Refusal :=
  match o with
  | .next t => .next (f t)
  | .fault r => .fault r
  | .refused r => .refused r

/-- The reset input asserted during a run (R230, R231): every element of R20 takes its reset value; the build, what the
outside does next and the model's other fields stay (log 16). -/
def State.resetCore (s : State) : State :=
  { State.resetFor s.rounds with events := s.events, got := s.got, sched := s.sched, draws := s.draws }

/-- Who moves (R36, R233). The engine can move when PEND is non-empty, the outside when it has an event left. Where both
can, the next entry of `sched` says which, and the engine moves where `sched` has run out (log 1). -/
def State.mover (s : State) : Option Agent :=
  match s.pend, s.events with
  | none, [] => none
  | some _, [] => some .engine
  | none, _ :: _ => some .host
  | some _, _ :: _ => some (s.sched.head?.getD .engine)

/-- A choice of `sched` is used up where both agents can move, and only there. -/
def State.takeTurn (s : State) : State :=
  match s.pend, s.events with
  | some _, _ :: _ => { s with sched := s.sched.tail }
  | _, _ => s

/-- The state whose very next step runs the command word c (log 3). A legal word stands in PEND, its operands sampled,
and the engine moves next. An illegal word is never in PEND, so it stands as the host's next write to CMD. -/
def State.placeCommand (c : Word) (s : State) : State :=
  match decode c with
  | .ok i => { s.accept i with sched := if s.events.isEmpty then s.sched else .engine :: s.sched }
  | .error _ =>
    { s with events := .write 0x00 4 c :: s.events, sched := if s.pend.isSome then .host :: s.sched else s.sched }

end Sys2Proof.Machine
end

