-- ==== Sys2Proof/Machine/Arx.lean ====
section
/-! DEFINITION. The ARX permutation engine and PERM (spec/40_arx_permutation.md R100 to R106). -/

namespace Sys2Proof.Machine

/-- add32 (R100): addition mod 2^32; no carry or overflow is kept. -/
def add32 (a b : Word) : Word := a + b

/-- rotl32 (R101), used with 1 <= r <= 31. -/
def rotl32 (x : Word) (r : Nat) : Word := (x <<< r) ||| (x >>> (32 - r))

/-- ROUND (R103), in the rule's single-assignment form. -/
def arxRound (X : Quad) : Quad :=
  let a := add32 X.w0 X.w1
  let b := rotl32 X.w1 5 ^^^ a
  let a' := rotl32 a 16
  let c := add32 X.w2 X.w3
  let d := rotl32 X.w3 8 ^^^ c
  let a2 := add32 a' d
  let d2 := rotl32 d 13 ^^^ a2
  let c2 := add32 c b
  let b2 := rotl32 b 7 ^^^ c2
  let c3 := rotl32 c2 16
  ⟨a2, b2, c3, d2⟩

/-- n rounds (R104). -/
def permuteRounds : Nat → Quad → Quad
  | 0, X => X
  | n + 1, X => permuteRounds n (arxRound X)

/-- ROUNDS as a number (R7). -/
def roundCount : Rounds → Nat
  | .eight => 8
  | .twelve => 12

/-- PERMUTE (R104). -/
def permute (r : Rounds) (X : Quad) : Quad := permuteRounds (roundCount r) X

/-- PERM (R106): TAG <- PERMUTE(TAG), in every FSM state; nothing else is written. -/
def execPerm (s : State) : Host.Outcome State Fault Refusal :=
  .next { s with tag := permute s.rounds s.tag }

end Sys2Proof.Machine
end

