-- ==== Sys2Proof/Machine/Absorb.lean ====
section
/-! DEFINITION. The MAC state accumulator and ABSORB (spec/42_absorb.md R140 to R143). -/

namespace Sys2Proof.Machine

/-- MIX_BLOCK (R142): TAG is permuted first unless this is the very first block, COUNT = 16 (R141); then the block is
xored in by words. BUF keeps its bytes. -/
def State.mixBlock (s : State) : State :=
  let t := if s.count - 16 ≠ 0 then permute s.rounds s.tag else s.tag
  { s with tag := t.xor (wordView s.buf) }

/-- BUF[COUNT mod 16], COUNT's low four bits as an index (R140). -/
def State.fillIndex (s : State) : Nat := s.count.toNat % 16

/-- ABSORB_BYTE(b) (R140). -/
def State.absorbByte (s : State) (b : Byte) : State :=
  let t := { s with buf := s.buf.set (s.count.toNat % 16) b (Nat.mod_lt _ (by decide)), count := s.count + 1 }
  if s.fillIndex = 15 then t.mixBlock else t

/-- Absorbing a byte sequence: ABSORB_BYTE of each byte in order (R140). -/
def State.absorbBytes (s : State) (bs : List Byte) : State := bs.foldl State.absorbByte s

/-- ABSORB n (R143): all checks before any write, in the order of R205; then n bytes of the sampled DIN, and
FSM = ABSORBING if n >= 1. A term with n > 4 is no command and is rejected EILLEGAL (log 9). -/
def execAbsorb (n : BitVec 3) (s : State) : Host.Outcome State Fault Refusal :=
  if 4 < n then .next (s.reject .eillegal)
  else if !s.fsm.hasContext then .next (s.reject .estate)
  else if s.countWouldPass n then .next (s.reject .ecount)
  else
    let t := s.absorbBytes (dinBytes s.absorbData n.toNat)
    .next (if 1 ≤ n then { t with fsm := .absorbing } else t)

end Sys2Proof.Machine
end

