-- ==== Sys2Proof/Machine/Control.lean ====
section
/-! DEFINITION. The control command NOP (spec/44_control.md R180). The core has no control transfer and no system command
(R182, R183). -/

namespace Sys2Proof.Machine

/-- NOP (R180): "(no state is written)". -/
def execNop (s : State) : Host.Outcome State Fault Refusal := .next s

end Sys2Proof.Machine
end

