-- ==== Sys2Proof/Machine/Finalize.lean ====
section
/-! DEFINITION. Padding, finalization, FINAL and FINAL.K (spec/43_finalize.md R160 to R167). -/

namespace Sys2Proof.Machine

/-- The padded block (R162): the i valid bytes, 0x01, then zeros. -/
def padBlock (b : Buffer) (i : Nat) : Buffer :=
  Vector.ofFn fun k => if k.val < i then b[k] else if k.val = i then 0x01 else 0x00

/-- FINALIZE_VALUE (R160): the final tag T and the padded buffer P; pure in TAG, BUF, COUNT, K1 and K2. -/
def finalizeValue (r : Rounds) (tag : Quad) (buf : Buffer) (count : BitVec 64) (k1 k2 : Quad) : Quad × Buffer :=
  let n := count.toNat
  let i := n % 16
  if n ≠ 0 ∧ i = 0 then
    ((permute r (tag.xor k1)).xor k1, buf)
  else
    let p := padBlock buf i
    let t := if n - i ≠ 0 then permute r tag else tag
    ((permute r ((t.xor (wordView p)).xor k2)).xor k2, p)

/-- FINALIZE_VALUE of the state's Context. -/
def State.finalizeValue (s : State) : Quad × Buffer :=
  Machine.finalizeValue s.rounds s.tag s.buf s.count s.k1 s.k2

/-- FINAL (R166): TAG and TOUT take the tag, BUF the padded block, FSM = FINALIZED. -/
def execFinal (s : State) : Host.Outcome State Fault Refusal :=
  if !s.fsm.hasContext then .next (s.reject .estate)
  else .next { s with tag := s.finalizeValue.1, buf := s.finalizeValue.2, tout := s.finalizeValue.1, fsm := .finalized }

/-- FINAL.K (R167): TOUT takes the tag of a copy; the Context is kept. -/
def execFinalK (s : State) : Host.Outcome State Fault Refusal :=
  if !s.fsm.hasContext then .next (s.reject .estate)
  else .next { s with tout := s.finalizeValue.1 }

end Sys2Proof.Machine
end

