-- ==== Sys2Proof/Machine/Subkey.lean ====
section
/-! DEFINITION. The subkey deriver and INIT (spec/41_subkey_derivation.md R120 to R122). -/

namespace Sys2Proof.Machine

/-- DOUBLE (R120): left by one bit across word boundaries; 0x87 into the lowest byte if bit 127 was set. -/
def double (X : Quad) : Quad :=
  let c : Word := if X.w3.getLsbD 31 then 0x00000087 else 0x00000000
  { w0 := (X.w0 <<< 1) ^^^ c
    w1 := (X.w1 <<< 1) ||| (X.w0 >>> 31)
    w2 := (X.w2 <<< 1) ||| (X.w1 >>> 31)
    w3 := (X.w3 <<< 1) ||| (X.w2 >>> 31) }

/-- DERIVE (R121): k1 = DOUBLE(Kin), k2 = DOUBLE(k1). -/
def derive (kin : Quad) : Quad × Quad :=
  let k1 := double kin
  (k1, double k1)

/-- INIT (R122): subkeys from the sampled key, TAG = Key, COUNT = 0, FSM = EMPTY; BUF, TOUT and the error record
are not written. Legal in every FSM state. -/
def execInit (s : State) : Host.Outcome State Fault Refusal :=
  let ks := derive s.kin
  .next { s with k1 := ks.1, k2 := ks.2, tag := s.kin, count := 0, fsm := .empty }

end Sys2Proof.Machine
end

