-- ==== Sys2Proof/Machine/Dispatch.lean ====
section
/-! DEFINITION. The engine's execution of one command: one arm per command, each a direct call of its meaning. -/

namespace Sys2Proof.Machine

def exec (i : Instr) (s : State) : Host.Outcome State Fault Refusal :=
  match i with
  | .nop => Sys2Proof.Machine.execNop s
  | .init => Sys2Proof.Machine.execInit s
  | .absorb n => Sys2Proof.Machine.execAbsorb n s
  | .final => Sys2Proof.Machine.execFinal s
  | .finalK => Sys2Proof.Machine.execFinalK s
  | .perm => Sys2Proof.Machine.execPerm s

end Sys2Proof.Machine
end

