-- ==== Sys2Proof/Machine/Window.lean ====
section
/-! DEFINITION. The register window as the host sees it: reads, writes and the host's step
(spec/20_memory.md R46 to R63; spec/30_encoding.md R79). -/

namespace Sys2Proof.Machine

/-- The defined value of a register (R47 to R57). -/
def State.peek (s : State) : Reg → Word
  | .cmd => 0
  | .status => s.status
  | .din => s.din
  | .cfg => BitVec.ofNat 32 (roundCount s.rounds)
  | .key j => s.key.word j
  | .tag j => s.tag.word j
  | .k1 j => s.k1.word j
  | .k2 j => s.k2.word j
  | .tout j => s.tout.word j
  | .countLo => s.count.extractLsb' 0 32
  | .countHi => s.count.extractLsb' 32 32
  | .reserved _ => 0

/-- The value read while BUSY = 1, v being the free draw: any value for the registers R63 lists, the defined value for
the others, and STATUS with its FSM and FILL fields free. -/
def State.peekBusy (s : State) (v : Word) : Reg → Word
  | .cmd => s.peek .cmd
  | .status => s.statusFree v
  | .din => s.peek .din
  | .cfg => s.peek .cfg
  | .key j => s.peek (.key j)
  | .tag _ => v
  | .k1 _ => v
  | .k2 _ => v
  | .tout _ => v
  | .countLo => v
  | .countHi => v
  | .reserved j => s.peek (.reserved j)

/-- The value a host read of register r returns now (R63). -/
def State.readValue (s : State) (r : Reg) : Word :=
  if s.busy then s.peekBusy (Config.freeRead s.draws) r else s.peek r

/-- A read made while BUSY = 1 uses up one free draw; no read changes the core (R61). -/
def State.afterRead (s : State) : State :=
  if s.busy then { s with draws := s.draws + 1 } else s

/-- A host write of v to register r (R47, R49 to R57): RO and reserved registers ignore it. -/
def State.writeReg (r : Reg) (v : Word) (s : State) : State :=
  match r with
  | .cmd => s.presentCommand v
  | .status => if v.getLsbD 1 then s.clearError else s
  | .din => { s with din := v }
  | .key j => { s with key := s.key.setWord j v }
  | .cfg => s
  | .tag _ => s
  | .k1 _ => s
  | .k2 _ => s
  | .tout _ => s
  | .countLo => s
  | .countHi => s
  | .reserved _ => s

/-- `MemRead(off, width)`: the value read is kept in `got` (log 11). -/
def State.hostRead (off width : Nat) (s : State) : Host.Outcome State Fault Refusal :=
  match accessedReg off width with
  | .next r => .next { s.afterRead with got := s.got ++ [s.readValue r] }
  | .fault e => .fault e
  | .refused e => .refused e

/-- `MemWrite(off, width, v)`. -/
def State.hostWrite (off width : Nat) (v : Word) (s : State) : Host.Outcome State Fault Refusal :=
  match accessedReg off width with
  | .next r => .next (s.writeReg r v)
  | .fault e => .fault e
  | .refused e => .refused e

/-- One step of WAIT (R79): STATUS is read once; the host stays in the loop while BUSY reads 1 (log 13). -/
def State.hostWait (rest : List Event) (s : State) : State :=
  if (s.readValue .status).getLsbD 0 then s.afterRead else { s.afterRead with events := rest }

/-- The outside's step: its next event takes effect (R12, R64, R231). -/
def State.hostStep (s : State) : Host.Outcome State Fault Refusal :=
  match s.events with
  | [] => .next s
  | .write off width v :: rest => State.hostWrite off width v { s with events := rest }
  | .read off width :: rest => State.hostRead off width { s with events := rest }
  | .wait :: rest => .next (s.hostWait rest)
  | .reset :: rest => .next (State.resetCore { s with events := rest })

end Sys2Proof.Machine
end

