-- ==== Sys2Proof/Machine/Listing.lean ====
section
/-! DEFINITION. The listing forms of host operations as lists of events (spec/30_encoding.md R78 to R81): mnemonics,
WR, RD, WAIT, the pseudo-instructions, and the feeding of a whole message. -/

namespace Sys2Proof.Machine

/-- The word of a line `mnemonic operand` (R78), all capitals or all small letters, `PROCESS n` and `COMMIT` included
(log 18). -/
def lineWord (mnemonic : String) (operand : Option Nat) : Option Word :=
  match operand with
  | none =>
    if mnemonic ∈ ["NOP", "nop"] then some (encode .nop)
    else if mnemonic ∈ ["INIT", "init"] then some (encode .init)
    else if mnemonic ∈ ["FINAL", "final", "COMMIT", "commit"] then some (encode .final)
    else if mnemonic ∈ ["FINAL.K", "final.k"] then some (encode .finalK)
    else if mnemonic ∈ ["PERM", "perm"] then some (encode .perm)
    else none
  | some n =>
    if mnemonic ∈ ["ABSORB", "absorb", "PROCESS", "process"] ∧ n ≤ 4 then some (encode (.absorb (BitVec.ofNat 3 n)))
    else none

/-- `WR reg, v` (R79). -/
def wr (r : Reg) (v : Word) : Event := .write r.offset 4 v

/-- `RD reg` (R79). -/
def rd (r : Reg) : Event := .read r.offset 4

/-- A line with a command mnemonic: `MemWrite(0x00, 4, word)` (R78). -/
def cmdLine (i : Instr) : Event := wr .cmd (encode i)

/-- PEEK (R80). -/
def peekLines : List Event := [cmdLine .finalK]

/-- ABSORBW (R80). -/
def absorbwLines : List Event := [cmdLine (.absorb 4)]

/-- CLRERR (R80). -/
def clrerrLines : List Event := [wr .status 0x00000002]

/-- SETKEY a, b, c, d (R80). -/
def setkeyLines (k : Quad) : List Event :=
  [wr (.key 0) k.w0, wr (.key 1) k.w1, wr (.key 2) k.w2, wr (.key 3) k.w3, cmdLine .init, .wait]

/-- FEED w, n (R80). -/
def feedLines (w : Word) (n : BitVec 3) : List Event := [wr .din w, cmdLine (.absorb n), .wait]

/-- GETTAG (R80). -/
def gettagLines : List Event := [.wait, rd (.tout 0), rd (.tout 1), rd (.tout 2), rd (.tout 3)]

/-- An arbitrary message fed in groups of four bytes, the last group of 1 to 3 bytes by its own ABSORB r (R81). The
bytes of DIN past the group are 0; ABSORB ignores them (R143). -/
def feedMessage : List Byte → List Event
  | [] => []
  | [b0] => feedLines (wordOfBytes b0 0 0 0) 1
  | [b0, b1] => feedLines (wordOfBytes b0 b1 0 0) 2
  | [b0, b1, b2] => feedLines (wordOfBytes b0 b1 b2 0) 3
  | b0 :: b1 :: b2 :: b3 :: rest => feedLines (wordOfBytes b0 b1 b2 b3) 4 ++ feedMessage rest

end Sys2Proof.Machine
end

