-- ==== Sys2Proof/Machine/Step.lean ====
section
/-! DEFINITION. One step of the machine: the outside's next event or the engine's execution of PEND
(spec/00_scope.md R12; spec/10_state.md R36; spec/70_reset_and_hazards.md R233). -/

namespace Sys2Proof.Machine

/-- The engine's step (R36): the command's rule with the sampled operands, then PEND empty and BUSY = 0. -/
def engineStep (s : State) : Host.Outcome State Fault Refusal :=
  match s.pend with
  | none => .next s
  | some p => mapNext State.complete (exec p.instr s)

/-- One step: whoever's turn it is moves; with no event left and nothing in flight the core holds its state (R211, R240;
log 12). -/
def step (s : State) : Host.Outcome State Fault Refusal :=
  match s.mover with
  | none => .next s
  | some .host => s.takeTurn.hostStep
  | some .engine => engineStep s.takeTurn

/-- s with the command word w placed so that the next step runs it (log 3). -/
def State.withFetchWord (s : State) (nbits w : Nat) : State :=
  s.placeCommand (BitVec.ofNat 32 (w % 2 ^ nbits))

end Sys2Proof.Machine
end

