-- ==== Sys2Proof/Safety.lean ====
section
/-! DEFINITION. The terms claims are made in: the invariant of the machine (spec/10_state.md R28, R36), which elements
two states share (R20, R25), the FSM table (R29), runs of commands, and the tag of a message as the spec's closed forms
give it (spec/42_absorb.md R144; spec/43_finalize.md R170). Nothing here is called by the step. -/

namespace Sys2Proof.Machine

/-- What holds between steps of every run. -/
structure State.Inv (s : State) : Prop where
  /-- "PEND is non-empty exactly when BUSY = 1" (R36). -/
  busy_pend : s.busy = s.pend.isSome
  /-- The command in PEND is a legal one that passes every check (R204, R205). -/
  pend_admissible : ∀ p, s.pend = some p → p.instr.wf = true ∧ s.commandError p.instr = none
  /-- FSM = EMPTY only with COUNT = 0 (R28). -/
  empty_count : s.fsm = .empty → s.count = 0
  /-- FSM = ABSORBING only with COUNT > 0 (R28). -/
  absorbing_count : s.fsm = .absorbing → s.count ≠ 0
  /-- A code is recorded exactly when ERR = 1 (R33, R203). -/
  err_record : s.err = false ↔ s.errCode = .noError
  /-- K2 is always DOUBLE(K1): only INIT writes them, and DOUBLE(0) = 0 at reset (R23, R24, R121). -/
  subkeys : s.k2 = double s.k1
  /-- Without an INIT since reset every element of the Context is as reset left it; PERM of 0 leaves 0 (R27, R106). -/
  unkeyed : s.fsm = .unkeyed →
    s.tag = .zero ∧ s.k1 = .zero ∧ s.k2 = .zero ∧ s.tout = .zero ∧ s.buf = .zero ∧ s.count = 0

/-- Two states that agree in every element of R20. -/
abbrev State.SameCore (s t : State) : Prop :=
  s.tag = t.tag ∧ s.key = t.key ∧ s.k1 = t.k1 ∧ s.k2 = t.k2 ∧ s.buf = t.buf ∧ s.count = t.count ∧ s.fsm = t.fsm ∧
  s.din = t.din ∧ s.tout = t.tout ∧ s.busy = t.busy ∧ s.err = t.err ∧ s.errCode = t.errCode ∧ s.pend = t.pend

/-- Every element of R20 has its reset value (R230). -/
abbrev State.AtReset (s : State) : Prop :=
  s.tag = ⟨0, 0, 0, 0⟩ ∧ s.key = ⟨0, 0, 0, 0⟩ ∧ s.k1 = ⟨0, 0, 0, 0⟩ ∧ s.k2 = ⟨0, 0, 0, 0⟩ ∧ s.tout = ⟨0, 0, 0, 0⟩ ∧
  s.buf = Vector.replicate 16 0 ∧ s.count = 0 ∧ s.din = 0 ∧ s.fsm = .unkeyed ∧ s.busy = false ∧ s.err = false ∧
  s.errCode = .noError ∧ s.pend = none

/-- Two states that differ at most in the unspecified bytes of BUF, those from COUNT mod 16 on (R25). -/
def State.SameButSlack (s t : State) : Prop :=
  { s with buf := t.buf } = t ∧ ∀ (k : Nat) (h : k < 16), k < s.count.toNat % 16 → s.buf[k] = t.buf[k]

/-- Both outcomes are next states related by R, or both stop in the same way. -/
def OutcomesRelated (R : State → State → Prop) (o o' : Host.Outcome State Fault Refusal) : Prop :=
  match o, o' with
  | .next s, .next t => R s t
  | .fault e, .fault e' => e = e'
  | .refused e, .refused e' => e = e'
  | _, _ => False

/-- The outside's next event is e, and it is the outside that moves. -/
abbrev State.HostMoves (s : State) (e : Event) (rest : List Event) : Prop :=
  s.mover = some .host ∧ s.events = e :: rest

/-- The engine moves, with p in PEND. -/
abbrev State.EngineMoves (s : State) (p : Pending) : Prop :=
  s.mover = some .engine ∧ s.pend = some p

/-- s once the outside's first event is taken from its list, and nothing else has happened. -/
abbrev State.afterEvent (s : State) (rest : List Event) : State := { s.takeTurn with events := rest }

/-- ABSORB, FINAL and FINAL.K (R201, ESTATE). -/
abbrev NeedsContext (i : Instr) : Prop := (∃ n, i = .absorb n) ∨ i = .final ∨ i = .finalK

/-- FSM is EMPTY or ABSORBING. -/
abbrev State.InContext (s : State) : Prop := s.fsm = .empty ∨ s.fsm = .absorbing

/-- FSM is UNKEYED or FINALIZED. -/
abbrev State.OutOfContext (s : State) : Prop := s.fsm = .unkeyed ∨ s.fsm = .finalized

/-- The table of R29 for a command that is not rejected; its ESTATE line leaves FSM unchanged. -/
def fsmTable (i : Instr) (f : Fsm) : Fsm :=
  match i, f with
  | .init, _ => .empty
  | .absorb n, .empty => if 1 ≤ n then .absorbing else .empty
  | .absorb _, .absorbing => .absorbing
  | .absorb _, .unkeyed => .unkeyed
  | .absorb _, .finalized => .finalized
  | .final, .empty => .finalized
  | .final, .absorbing => .finalized
  | .final, .unkeyed => .unkeyed
  | .final, .finalized => .finalized
  | .finalK, f => f
  | .perm, f => f
  | .nop, f => f

/-- The accepted command p in flight, and then the engine's step (R233). -/
def runCommand (p : Pending) (s : State) : Host.Outcome State Fault Refusal :=
  engineStep { s with pend := some p, busy := true }

/-- Commands in order, each one complete before the next is accepted. -/
def runCommands : List Pending → State → Host.Outcome State Fault Refusal
  | [], s => .next s
  | p :: ps, s =>
    match runCommand p s with
    | .next t => runCommands ps t
    | .fault e => .fault e
    | .refused e => .refused e

/-- ABSORB n commands with their sampled DIN words (R143). -/
def absorbs (cs : List (BitVec 3 × Word)) : List Pending := cs.map fun c => .absorb c.1 c.2

/-- The message bytes those commands carry, in order (R143). -/
def absorbedBytes (cs : List (BitVec 3 × Word)) : List Byte := cs.flatMap fun c => dinBytes c.2 c.1.toNat

/-- Every count is one ABSORB allows (R73). -/
abbrev legalCounts (cs : List (BitVec 3 × Word)) : Prop := ∀ c ∈ cs, c.1 ≤ 4

/-- The word view of the block that starts at byte 16 j of m; bytes past the end are 0 (R144). -/
def messageBlock (m : List Byte) (j : Nat) : Quad := wordView (Vector.ofFn fun k => m.getD (16 * j + k.val) 0)

/-- T_q of R144, and Key for q = 0. -/
def accumulated (r : Rounds) (key : Quad) (m : List Byte) : Nat → Quad
  | 0 => key
  | 1 => key.xor (messageBlock m 0)
  | j + 2 => (permute r (accumulated r key m (j + 1))).xor (messageBlock m (j + 1))

/-- v of R170 after its loop has run j times. -/
def chained (r : Rounds) (key : Quad) (m : List Byte) : Nat → Quad
  | 0 => key
  | j + 1 => permute r ((chained r key m j).xor (messageBlock m j))

/-- The one-shot form of R170: the tag words of message m under the key, by its numbered lines. A message whose length is
no positive multiple of 16 has 0x01 put after it; the zeros after that are `messageBlock`'s. -/
def oneShotTag (r : Rounds) (key : Quad) (m : List Byte) : Quad :=
  let full : Bool := decide (m.length ≠ 0 ∧ m.length % 16 = 0)
  let q := if full then m.length / 16 else m.length / 16 + 1
  let blocks := if full then m else m ++ [0x01]
  let l := if full then double key else double (double key)
  let v := ((chained r key blocks (q - 1)).xor (messageBlock blocks (q - 1))).xor l
  (permute r v).xor l

end Sys2Proof.Machine
end

