-- ==== Sys2Proof/Certificates/Slice0/Obligations.lean ====
section
/-! DEFINITION. The statements for the provers, in the order of spec/'s files but for the last. R<n> is a rule of spec/,
log <n> a row of notes/assumptions/. What a host read returns is seen in `got`, where the model keeps it (log 11). A state
is any state of the type, reached or not, unless a hypothesis says otherwise; `InContext`, `HostMoves` and the other
abbreviations are in Sys2Proof/Safety.lean. -/

open Sys2Proof Sys2Proof.Machine

/-! ## Views of data (00_scope.md) -/

/-- R16: W by its formula, B by its formula, and each undoes the other. -/
def Obligations.ByteAndWordViewsAreInverse : Prop :=
  (∀ b : Buffer, wordView b =
    ⟨b[0].setWidth 32 ||| (b[1].setWidth 32 <<< 8) ||| (b[2].setWidth 32 <<< 16) ||| (b[3].setWidth 32 <<< 24),
     b[4].setWidth 32 ||| (b[5].setWidth 32 <<< 8) ||| (b[6].setWidth 32 <<< 16) ||| (b[7].setWidth 32 <<< 24),
     b[8].setWidth 32 ||| (b[9].setWidth 32 <<< 8) ||| (b[10].setWidth 32 <<< 16) ||| (b[11].setWidth 32 <<< 24),
     b[12].setWidth 32 ||| (b[13].setWidth 32 <<< 8) ||| (b[14].setWidth 32 <<< 16) ||| (b[15].setWidth 32 <<< 24)⟩) ∧
  (∀ (w : Quad) (j : Fin 4) (i : Fin 4),
    (byteView w)[4 * j.val + i.val] = (w.word j).extractLsb' (8 * i.val) 8) ∧
  (∀ b : Buffer, byteView (wordView b) = b) ∧ (∀ w : Quad, wordView (byteView w) = w)

/-! ## State (10_state.md) -/

/-- Reset meets the invariant, whichever round count the build has. -/
def Obligations.ResetMeetsTheInvariant : Prop :=
  State.reset.Inv ∧ ∀ r : Rounds, (State.resetFor r).Inv

/-- Every step, of either agent, keeps the invariant (R28, R33, R36, R204; K2 = DOUBLE(K1); UNKEYED means untouched). -/
def Obligations.EveryStepKeepsTheInvariant : Prop :=
  ∀ s t : State, s.Inv → step s = .next t → t.Inv

/-- R29, all of its table: what each step does to FSM. -/
def Obligations.FsmMovesByItsTable : Prop :=
  (∀ (s t : State), step s = .next t →
    (∀ rest, s.HostMoves .reset rest → t.fsm = .unkeyed) ∧
    (∀ e rest, s.HostMoves e rest → e ≠ .reset → t.fsm = s.fsm) ∧
    (∀ p, s.EngineMoves p → p.instr.wf = true → s.commandError p.instr = none →
      t.fsm = fsmTable p.instr s.fsm) ∧
    (∀ p e, s.EngineMoves p → s.commandError p.instr = some e → t.fsm = s.fsm) ∧
    (s.mover = none → t.fsm = s.fsm)) ∧
  (∀ (s : State) (c : Word) (i : Instr), s.busy = false → decode c = .ok i → NeedsContext i → s.OutOfContext →
    s.presentCommand c = s.reject .estate)

/-- R25: two states that differ only in BUF's unspecified bytes behave alike for ever: every read returns the same value,
and a step leads to states that again differ only there. So the bytes the model keeps there (log 10) reach no output. -/
def Obligations.UnspecifiedBufferBytesReachNoOutput : Prop :=
  ∀ s t : State, s.SameButSlack t →
    (∀ r : Reg, s.readValue r = t.readValue r) ∧ OutcomesRelated State.SameButSlack (step s) (step t)

/-- Who writes what (R21 to R26, R30, R31, R7): an element that a step changes was changed by a writer its rule names. -/
def Obligations.OnlyItsWritersChangeAnElement : Prop :=
  ∀ s t : State, step s = .next t → (¬ ∃ rest, s.HostMoves .reset rest) →
    (t.key ≠ s.key → ∃ (j : Fin 4) (v : Word) (rest : List Event), s.HostMoves (.write (0x10 + 4 * j.val) 4 v) rest) ∧
    (t.din ≠ s.din → ∃ (v : Word) (rest : List Event), s.HostMoves (.write 0x08 4 v) rest) ∧
    (t.k1 ≠ s.k1 ∨ t.k2 ≠ s.k2 → ∃ k, s.EngineMoves (.init k)) ∧
    (t.tout ≠ s.tout → s.EngineMoves .final ∨ s.EngineMoves .finalK) ∧
    (t.tag ≠ s.tag →
      (∃ k, s.EngineMoves (.init k)) ∨ (∃ n d, s.EngineMoves (.absorb n d)) ∨ s.EngineMoves .final ∨ s.EngineMoves .perm) ∧
    (t.buf ≠ s.buf → (∃ n d, s.EngineMoves (.absorb n d)) ∨ s.EngineMoves .final) ∧
    (t.count ≠ s.count → (∃ k, s.EngineMoves (.init k)) ∨ ∃ n d, s.EngineMoves (.absorb n d)) ∧
    t.rounds = s.rounds

/-! ## The register window (20_memory.md) -/

/-- R46: the 32 slots of the map, each the offset of exactly one register, and no other offset below 0x80 a multiple of 4. -/
def Obligations.RegisterMapIsOneToOne : Prop :=
  (∀ (off : Nat) (r : Reg), Reg.ofOffset off = some r ↔ off = r.offset) ∧
  (∀ off : Nat, (Reg.ofOffset off).isSome ↔ off % 4 = 0 ∧ off ≤ 0x7C)

/-- STATUS field by field, as 20_memory.md lays it out, and 0 at reset. While BUSY = 1 the spec has FSM and FILL any value;
that they are bits 9:8 and 15:12 of `Config.freeRead s.draws` is the model's choice (log 5). This is about the value alone:
that the step of a host read at 0x04 appends `readValue .status` to `got`, idle or not, is `HostReadAppendsTheRegister`. -/
def Obligations.StatusReadsByItsLayout : Prop :=
  (∀ s : State,
    (s.readValue .status).getLsbD 0 = s.busy ∧
    (s.readValue .status).getLsbD 1 = s.err ∧
    (s.readValue .status).extractLsb' 2 2 = 0 ∧
    (s.readValue .status).extractLsb' 4 3 =
      (match s.errCode with | .noError => 0 | .eillegal => 1 | .estate => 2 | .ebusy => 3 | .ecount => 4) ∧
    (s.readValue .status).getLsbD 7 = false ∧
    (s.busy = false → (s.readValue .status).extractLsb' 8 2 =
      (match s.fsm with | .unkeyed => 0 | .empty => 1 | .absorbing => 2 | .finalized => 3)) ∧
    (s.readValue .status).extractLsb' 10 2 = 0 ∧
    (s.busy = false → ((s.readValue .status).extractLsb' 12 4).toNat = s.count.toNat % 16) ∧
    (s.readValue .status).extractLsb' 16 16 = 0 ∧
    (s.busy = true → (s.readValue .status).extractLsb' 8 2 = (Config.freeRead s.draws).extractLsb' 8 2 ∧
      (s.readValue .status).extractLsb' 12 4 = (Config.freeRead s.draws).extractLsb' 12 4)) ∧
  State.reset.readValue .status = 0

/-- R49: a STATUS write clears the error record when bit 1 is set, does nothing otherwise, and may come while BUSY = 1. -/
def Obligations.StatusWriteClearsTheErrorRecord : Prop :=
  ∀ (s : State) (rest : List Event) (v : Word), s.HostMoves (.write 0x04 4 v) rest →
    (v.getLsbD 1 = true → step s = .next { s.afterEvent rest with err := false, errCode := .noError }) ∧
    (v.getLsbD 1 = false → step s = .next (s.afterEvent rest))

/-- The data registers DIN and KEY0 to KEY3 (20_memory.md, R50 and R51): a write sets the register and changes nothing
else, at any time; a read returns it, at any time (kept in `got`, log 11). -/
def Obligations.DinAndKeyAreWrittenAndReadBack : Prop :=
  ∀ (s : State) (rest : List Event) (v : Word),
    (s.HostMoves (.write 0x08 4 v) rest → step s = .next { s.afterEvent rest with din := v }) ∧
    (s.HostMoves (.write 0x10 4 v) rest → step s = .next { s.afterEvent rest with key := { s.key with w0 := v } }) ∧
    (s.HostMoves (.write 0x14 4 v) rest → step s = .next { s.afterEvent rest with key := { s.key with w1 := v } }) ∧
    (s.HostMoves (.write 0x18 4 v) rest → step s = .next { s.afterEvent rest with key := { s.key with w2 := v } }) ∧
    (s.HostMoves (.write 0x1C 4 v) rest → step s = .next { s.afterEvent rest with key := { s.key with w3 := v } }) ∧
    (s.HostMoves (.read 0x08 4) rest → ∃ t, step s = .next t ∧ t.got = s.got ++ [s.din]) ∧
    (s.HostMoves (.read 0x10 4) rest → ∃ t, step s = .next t ∧ t.got = s.got ++ [s.key.w0]) ∧
    (s.HostMoves (.read 0x14 4) rest → ∃ t, step s = .next t ∧ t.got = s.got ++ [s.key.w1]) ∧
    (s.HostMoves (.read 0x18 4) rest → ∃ t, step s = .next t ∧ t.got = s.got ++ [s.key.w2]) ∧
    (s.HostMoves (.read 0x1C 4) rest → ∃ t, step s = .next t ∧ t.got = s.got ++ [s.key.w3])

/-- R52, R53, R54: CFG, TAG0-3, K1_0-3 and K2_0-3 read their element (CFG at any time, the others while BUSY = 0) and
ignore writes; also TOUT0-3, COUNT_LO and COUNT_HI. The read adds its value to `got` (log 11) and changes nothing else. -/
def Obligations.ReadOnlyRegistersReadAndIgnoreWrites : Prop :=
  ∀ (s : State) (rest : List Event) (j : Fin 4) (v : Word),
    (s.HostMoves (.read 0x0C 4) rest → ∃ t, step s = .next t ∧ (s.afterEvent rest).SameCore t ∧
      t.got = s.got ++ [match s.rounds with | .eight => 0x00000008#32 | .twelve => 0x0000000C#32]) ∧
    (s.busy = false →
      (s.HostMoves (.read (0x20 + 4 * j.val) 4) rest → step s = .next { s.afterEvent rest with got := s.got ++ [s.tag.word j] }) ∧
      (s.HostMoves (.read (0x30 + 4 * j.val) 4) rest → step s = .next { s.afterEvent rest with got := s.got ++ [s.k1.word j] }) ∧
      (s.HostMoves (.read (0x40 + 4 * j.val) 4) rest → step s = .next { s.afterEvent rest with got := s.got ++ [s.k2.word j] }) ∧
      (s.HostMoves (.read (0x50 + 4 * j.val) 4) rest → step s = .next { s.afterEvent rest with got := s.got ++ [s.tout.word j] }) ∧
      (s.HostMoves (.read 0x60 4) rest →
        step s = .next { s.afterEvent rest with got := s.got ++ [BitVec.ofNat 32 (s.count.toNat % 2 ^ 32)] }) ∧
      (s.HostMoves (.read 0x64 4) rest →
        step s = .next { s.afterEvent rest with got := s.got ++ [BitVec.ofNat 32 (s.count.toNat / 2 ^ 32)] })) ∧
    (∀ off ∈ [0x0C, 0x20 + 4 * j.val, 0x30 + 4 * j.val, 0x40 + 4 * j.val, 0x50 + 4 * j.val, 0x60, 0x64],
      s.HostMoves (.write off 4 v) rest → step s = .next (s.afterEvent rest))

/-- R57: reserved offsets read 0 and ignore writes, writes to RO registers change nothing and raise no error, CMD reads 0. -/
def Obligations.ReservedAndReadOnlyOffsetsIgnoreWrites : Prop :=
  ∀ (s : State) (rest : List Event) (off : Nat) (v : Word), off % 4 = 0 →
    ((0x68 ≤ off ∧ off ≤ 0x7C) ∨ off = 0x00 → s.HostMoves (.read off 4) rest →
      ∃ t, step s = .next t ∧ (s.afterEvent rest).SameCore t ∧ t.got = s.got ++ [0]) ∧
    (off = 0x0C ∨ (0x20 ≤ off ∧ off ≤ 0x7C) → s.HostMoves (.write off 4 v) rest → step s = .next (s.afterEvent rest))

/-- R58: 32-bit accesses at multiples of 4 up to 0x7C are the host accesses there are, each allowed at any time (R67, R209);
the model refuses one of another width or alignment. -/
def Obligations.OnlyAlignedWordAccessesHaveAStep : Prop :=
  ∀ (s : State) (rest : List Event) (off width : Nat) (v : Word),
    (width = 4 ∧ off % 4 = 0 ∧ off ≤ 0x7C →
      (s.HostMoves (.write off width v) rest → ∃ t, step s = .next t ∧ t.events = rest) ∧
      (s.HostMoves (.read off width) rest → ∃ t, step s = .next t ∧ t.events = rest)) ∧
    (width ≠ 4 ∨ off % 4 ≠ 0 →
      (s.HostMoves (.write off width v) rest → step s = .refused (.undefinedAccess off width)) ∧
      (s.HostMoves (.read off width) rest → step s = .refused (.undefinedAccess off width)))

/-- The model's choice of log 6, no rule of the spec: an aligned word access past the window stops with a fault. -/
def Obligations.AccessPastTheWindowFaults : Prop :=
  ∀ (s : State) (rest : List Event) (off : Nat) (v : Word), off % 4 = 0 → 0x80 ≤ off →
    (s.HostMoves (.write off 4 v) rest → step s = .fault (.outsideWindow off)) ∧
    (s.HostMoves (.read off 4) rest → step s = .fault (.outsideWindow off))

/-- R59: byte k of the register at offset off stands at bus address BASE + off + k and is bits 8k+7 : 8k; each bus address
of the window is one such byte, and none outside it is. -/
def Obligations.ByteLanesAreLittleEndian : Prop :=
  (∀ off k : Nat, off % 4 = 0 → off ≤ 0x7C → k < 4 → busLane (Config.base + off + k) = some (off, k)) ∧
  (∀ a : Nat, (busLane a).isSome ↔ Config.base ≤ a ∧ a < Config.base + 0x80) ∧
  (∀ (v : Word) (k i : Nat), k < 4 → i < 8 → (byteOf v k).getLsbD i = v.getLsbD (8 * k + i))

/-- R61: no read has a side effect: a host read of any register, and a WAIT, change no element of R20. -/
def Obligations.ReadsChangeNoElement : Prop :=
  ∀ (s t : State) (rest : List Event) (e : Event), s.HostMoves e rest → (e = .wait ∨ ∃ off width, e = .read off width) →
    step s = .next t → s.SameCore t ∧ t.rounds = s.rounds

/-- R62: what PEND records at acceptance; that host writes of DIN and KEY leave PEND alone; and that the engine's step on a
command in flight is the same whatever DIN and KEY have become. -/
def Obligations.OperandsAreSampledAtTheCmdWrite : Prop :=
  (∀ (s : State) (i : Instr), ∃ p, (s.accept i).pend = some p ∧ p.instr = i ∧
    (∀ k, p = .init k → k = s.key) ∧ (∀ n d, p = .absorb n d → d = s.din)) ∧
  (∀ (s t : State) (rest : List Event) (v : Word) (off : Nat), off ∈ [0x08, 0x10, 0x14, 0x18, 0x1C] →
    s.HostMoves (.write off 4 v) rest → step s = .next t → t.pend = s.pend ∧ t.busy = s.busy) ∧
  (∀ (s : State) (p : Pending) (d : Word) (k : Quad), s.pend = some p →
    engineStep { s with din := d, key := k } = mapNext (fun t => { t with din := d, key := k }) (engineStep s))

/-- Reads during a command (20_memory.md, section 3). The spec has a read of TAG, K1, K2, TOUT, COUNT_LO or COUNT_HI, and of
STATUS's FSM and FILL, return any value; that this value is `Config.freeRead s.draws`, of which nothing is known, for STATUS
its bits 9:8 and 15:12, and that every such read advances `draws`, is the model's choice (log 5). STATUS reads its BUSY, ERR
and ERRCODE as they are and its reserved bits 0; CMD, DIN, KEY, CFG and the reserved offsets read as while BUSY = 0. -/
def Obligations.BusyReadsReturnAnyValue : Prop :=
  ∀ (s : State) (rest : List Event) (off : Nat), s.busy = true → off % 4 = 0 → s.HostMoves (.read off 4) rest →
    (0x20 ≤ off ∧ off ≤ 0x64 → step s =
      .next { s.afterEvent rest with draws := s.draws + 1, got := s.got ++ [Config.freeRead s.draws] }) ∧
    (off = 0x04 → ∃ v : Word,
      step s = .next { s.afterEvent rest with draws := s.draws + 1, got := s.got ++ [v] } ∧
      v.getLsbD 0 = true ∧ v.getLsbD 1 = s.err ∧ v.extractLsb' 2 2 = 0 ∧
      v.extractLsb' 4 3 = (match s.errCode with | .noError => 0 | .eillegal => 1 | .estate => 2 | .ebusy => 3 | .ecount => 4) ∧
      v.getLsbD 7 = false ∧ v.extractLsb' 8 2 = (Config.freeRead s.draws).extractLsb' 8 2 ∧ v.extractLsb' 10 2 = 0 ∧
      v.extractLsb' 12 4 = (Config.freeRead s.draws).extractLsb' 12 4 ∧ v.extractLsb' 16 16 = 0) ∧
    (∀ r : Reg, Reg.ofOffset off = some r → off ∈ [0x00, 0x08, 0x0C, 0x10, 0x14, 0x18, 0x1C] ∨ 0x68 ≤ off →
      ∃ t, step s = .next t ∧ t.got = s.got ++ [({ s with busy := false } : State).readValue r])

/-! ## Command encoding (30_encoding.md) -/

/-- R76: exactly ten of the 2^32 words are legal, and these are they. -/
def Obligations.ExactlyTenWordsAreLegal : Prop :=
  ∀ (c : Word) (i : Instr), decode c = .ok i ↔
    (c = 0x00000000 ∧ i = .nop) ∨ (c = 0x00000001 ∧ i = .init) ∨
    (c = 0x00000002 ∧ i = .absorb 0) ∨ (c = 0x00000012 ∧ i = .absorb 1) ∨ (c = 0x00000022 ∧ i = .absorb 2) ∨
    (c = 0x00000032 ∧ i = .absorb 3) ∨ (c = 0x00000042 ∧ i = .absorb 4) ∨
    (c = 0x00000003 ∧ i = .final) ∨ (c = 0x00000083 ∧ i = .finalK) ∨ (c = 0x00000004 ∧ i = .perm)

/-- Decode and encode agree both ways: every legal command's word decodes to it, and every word that decodes is the word of
the legal command it decodes to. -/
def Obligations.DecodeAndEncodeAgree : Prop :=
  (∀ i : Instr, i.wf = true → decode (encode i) = .ok i) ∧
  (∀ (c : Word) (i : Instr), decode c = .ok i → i.wf = true ∧ encode i = c)

/-- Words of every row written out bit by bit from its encoding, and two illegal neighbours. -/
def Obligations.SpelledOutWordsDecode : Prop :=
  decode 0b00000000000000000000000000000000#32 = .ok .nop ∧
  decode 0b00000000000000000000000000000001#32 = .ok .init ∧
  decode 0b00000000000000000000000000110010#32 = .ok (.absorb 3) ∧
  decode 0b00000000000000000000000000000011#32 = .ok .final ∧
  decode 0b00000000000000000000000010000011#32 = .ok .finalK ∧
  decode 0b00000000000000000000000000000100#32 = .ok .perm ∧
  decode 0b00000000000000000000000001010010#32 = .error .countNotAllowed ∧
  decode 0b00000000000000000000000100000001#32 = .error .reservedBits

/-- R77: which words are illegal, by the five causes, and that a CMD write of one is rejected with EILLEGAL (while BUSY = 0)
and has no other effect. -/
def Obligations.IllegalWordsAreRejected : Prop :=
  (∀ c : Word, (∃ e, decode c = .error e) ↔
    reservedField c ≠ 0 ∨ 5 ≤ opField c ∨ (opField c ≠ 2 ∧ countField c ≠ 0) ∨
    (opField c = 2 ∧ 4 < countField c) ∨ (opField c ≠ 3 ∧ keepField c = 1)) ∧
  (∀ (s : State) (rest : List Event) (c : Word) (e : DecodeError), s.HostMoves (.write 0x00 4 c) rest → s.busy = false →
    decode c = .error e →
      (s.err = false → step s = .next { s.afterEvent rest with err := true, errCode := .eillegal }) ∧
      (s.err = true → step s = .next (s.afterEvent rest)))

/-- The command lines (30_encoding.md, section 3): each, in capitals and in small letters, stands for its word, written to
CMD. The spec lets an assembler accept PROCESS n and COMMIT; that the model accepts them, and that it reads a line in all
capitals or all small letters only, are its own choices (log 18). -/
def Obligations.CommandLinesStandForTheirWords : Prop :=
  (∀ m ∈ ["NOP", "nop"], lineWord m none = some 0x00000000) ∧
  (∀ m ∈ ["INIT", "init"], lineWord m none = some 0x00000001) ∧
  (∀ m ∈ ["ABSORB", "absorb", "PROCESS", "process"], ∀ n : Nat,
    (n ≤ 4 → lineWord m (some n) = some (BitVec.ofNat 32 (0x00000002 + 16 * n))) ∧ (4 < n → lineWord m (some n) = none)) ∧
  (∀ m ∈ ["FINAL", "final", "COMMIT", "commit"], lineWord m none = some 0x00000003) ∧
  (∀ m ∈ ["FINAL.K", "final.k"], lineWord m none = some 0x00000083) ∧
  (∀ m ∈ ["PERM", "perm"], lineWord m none = some 0x00000004) ∧
  (∀ i : Instr, cmdLine i = .write 0x00 4 (encode i))

/-- R81 with R80's FEED: however the two agents interleave (log 1), feeding a message of any length to an idle core with a
Context ends with exactly its bytes absorbed in order, one after another (WAIT as one event: log 13). -/
def Obligations.FeedingAMessageAbsorbsItsBytes : Prop :=
  ∀ (s : State) (m : List Byte) (rest : List Event), s.Inv → s.busy = false → s.InContext →
    s.events = feedMessage m ++ rest → s.count.toNat + m.length ≤ 2 ^ 64 - 1 →
    ∃ (k : Nat) (t : State), Host.Core.run Sys2Proof.core k s = .next t ∧ t.events = rest ∧ t.busy = false ∧ t.pend = none ∧
      t.tag = (s.absorbBytes m).tag ∧ t.buf = (s.absorbBytes m).buf ∧ t.count = (s.absorbBytes m).count ∧
      t.fsm = (if m = [] then s.fsm else .absorbing) ∧
      t.key = s.key ∧ t.k1 = s.k1 ∧ t.k2 = s.k2 ∧ t.tout = s.tout ∧ t.err = s.err ∧ t.errCode = s.errCode ∧ t.got = s.got

/-! ## The permutation engine (40_arx_permutation.md) -/

/-- R100: addition mod 2^32, with the rule's corner cases. -/
def Obligations.AdditionIsModulo2To32 : Prop :=
  (∀ a b : Word, (add32 a b).toNat = (a.toNat + b.toNat) % 2 ^ 32) ∧
  add32 0xFFFFFFFF 0x00000001 = 0x00000000 ∧ add32 0x80000000 0x80000000 = 0x00000000 ∧ ∀ a : Word, add32 a 0 = a

/-- R101: the rule's formula; bit i of x moves to bit (i + r) mod 32; the rule's examples. -/
def Obligations.RotationMovesEveryBit : Prop :=
  (∀ (x : Word) (r : Nat), rotl32 x r = (x <<< r) ||| (x >>> (32 - r))) ∧
  (∀ (x : Word) (r i : Nat), 1 ≤ r → r ≤ 31 → i < 32 → (rotl32 x r).getLsbD ((i + r) % 32) = x.getLsbD i) ∧
  rotl32 0x80000001 5 = 0x00000030 ∧ rotl32 0x12345678 16 = 0x56781234 ∧ rotl32 0x12345678 8 = 0x34567812 ∧
  rotl32 0x12345678 13 = 0x8ACF0246 ∧ rotl32 0x12345678 7 = 0x1A2B3C09

/-- R103: the round is the fourteen statements of DOC0 run in order on v0 to v3; the worked example. -/
def Obligations.RoundIsTheStatedSequence : Prop :=
  (∀ v : Quad, arxRound v =
    let v := { v with w0 := add32 v.w0 v.w1 }
    let v := { v with w1 := rotl32 v.w1 5 }
    let v := { v with w1 := v.w1 ^^^ v.w0 }
    let v := { v with w0 := rotl32 v.w0 16 }
    let v := { v with w2 := add32 v.w2 v.w3 }
    let v := { v with w3 := rotl32 v.w3 8 }
    let v := { v with w3 := v.w3 ^^^ v.w2 }
    let v := { v with w0 := add32 v.w0 v.w3 }
    let v := { v with w3 := rotl32 v.w3 13 }
    let v := { v with w3 := v.w3 ^^^ v.w0 }
    let v := { v with w2 := add32 v.w2 v.w1 }
    let v := { v with w1 := rotl32 v.w1 7 }
    let v := { v with w1 := v.w1 ^^^ v.w2 }
    { v with w2 := rotl32 v.w2 16 }) ∧
  arxRound ⟨0x00000001, 0, 0, 0⟩ = ⟨0x00010000, 0x00000081, 0x00010000, 0x00010000⟩

/-- R105: PERMUTE of zeros is zeros, PERMUTE is a bijection, and twelve rounds are eight and then four more. -/
def Obligations.PermutationIsABijection : Prop :=
  (∀ r : Rounds, permute r ⟨0, 0, 0, 0⟩ = ⟨0, 0, 0, 0⟩) ∧
  (∀ r : Rounds, Function.Bijective (permute r)) ∧
  (∀ X : Quad, permute .twelve X = arxRound (arxRound (arxRound (arxRound (permute .eight X)))))

/-- PERM runs in every state (40_arx_permutation.md, the PERM command): ROUNDS rounds of TAG, and nothing else changes. -/
def Obligations.PermPermutesTagAlone : Prop :=
  ∀ s : State, exec .perm s =
    .next { s with tag := arxRound^[match s.rounds with | .eight => 8 | .twelve => 12] s.tag }

/-! ## Subkeys and INIT (41_subkey_derivation.md) -/

/-- R120: DOUBLE as one 128-bit shift with the constant 0x87 when bit 127 was set; the word equations; the corner cases. -/
def Obligations.DoubleShiftsAndReduces : Prop :=
  (∀ X : Quad,
    ((double X).w3 ++ (double X).w2 ++ (double X).w1 ++ (double X).w0 : BitVec 128) =
      ((X.w3 ++ X.w2 ++ X.w1 ++ X.w0 : BitVec 128) <<< 1) ^^^ (if X.w3.getLsbD 31 then 0x87#128 else 0#128)) ∧
  (∀ X : Quad, ∃ c : Word, c = (if X.w3.getLsbD 31 then 0x00000087 else 0x00000000) ∧
    (double X).w0 = (X.w0 <<< 1) ^^^ c ∧ (double X).w1 = (X.w1 <<< 1) ||| (X.w0 >>> 31) ∧
    (double X).w2 = (X.w2 <<< 1) ||| (X.w1 >>> 31) ∧ (double X).w3 = (X.w3 <<< 1) ||| (X.w2 >>> 31)) ∧
  double ⟨0, 0, 0, 0⟩ = ⟨0, 0, 0, 0⟩ ∧ double ⟨0x80000000, 0, 0, 0⟩ = ⟨0, 0x00000001, 0, 0⟩ ∧
  double ⟨0, 0, 0, 0x80000000⟩ = ⟨0x00000087, 0, 0, 0⟩ ∧
  double ⟨0xFFFFFFFF, 0xFFFFFFFF, 0xFFFFFFFF, 0xFFFFFFFF⟩ = ⟨0xFFFFFF79, 0xFFFFFFFF, 0xFFFFFFFF, 0xFFFFFFFF⟩

/-- INIT runs in every state (41_subkey_derivation.md, the INIT command): subkeys of the sampled key, TAG = Key, COUNT = 0,
FSM = EMPTY, and nothing else changes. -/
def Obligations.InitStartsAContext : Prop :=
  ∀ (s : State) (kin : Quad), s.pend = some (.init kin) → exec .init s =
    .next { s with k1 := double kin, k2 := double (double kin), tag := kin, count := 0, fsm := .empty }

/-! ## ABSORB (42_absorb.md) -/

/-- ABSORB n (42_absorb.md, the ABSORB command, with its byte and block rules): with a Context, n at most 4 and room in
COUNT it completes; byte k of the sampled DIN goes to BUF[(COUNT + k) mod 16]; COUNT grows by n; TAG changes when the bytes
complete a block, by a permutation first unless it is the first block; FSM; and nothing else changes. -/
def Obligations.AbsorbTakesItsBytesInOrder : Prop :=
  ∀ (s : State) (n : BitVec 3) (d : Word), s.pend = some (.absorb n d) → n ≤ 4 → s.InContext →
    s.count.toNat + n.toNat ≤ 2 ^ 64 - 1 →
    ∃ t, exec (.absorb n) s = .next t ∧
      t = { s with buf := t.buf, count := t.count, tag := t.tag, fsm := t.fsm } ∧
      t.count.toNat = s.count.toNat + n.toNat ∧
      t.fsm = (if n = 0 then s.fsm else .absorbing) ∧
      (∀ (k : Nat) (h : k < 16), t.buf[k] =
        if (k + 16 - s.count.toNat % 16) % 16 < n.toNat then d.extractLsb' (8 * ((k + 16 - s.count.toNat % 16) % 16)) 8
        else s.buf[k]) ∧
      (s.count.toNat % 16 + n.toNat < 16 → t.tag = s.tag) ∧
      (16 ≤ s.count.toNat % 16 + n.toNat → t.tag =
        (if s.count.toNat < 16 then s.tag else permute s.rounds s.tag).xor
          (wordView (Vector.ofFn fun k : Fin 16 => if k.val < s.count.toNat % 16 then s.buf[k]
            else d.extractLsb' (8 * (k.val - s.count.toNat % 16)) 8)))

/-- The forms of ABSORB that raise (42_absorb.md, the ABSORB command; N > 4 is log 9): only the error record changes, by
the first cause in the order EILLEGAL, ESTATE, ECOUNT. -/
def Obligations.AbsorbRaisesBeforeAnyWrite : Prop :=
  ∀ (s : State) (n : BitVec 3),
    (4 < n → exec (.absorb n) s = .next (s.reject .eillegal)) ∧
    (n ≤ 4 → s.OutOfContext → exec (.absorb n) s = .next (s.reject .estate)) ∧
    (n ≤ 4 → s.InContext → 2 ^ 64 - 1 < s.count.toNat + n.toNat → exec (.absorb n) s = .next (s.reject .ecount))

/-- R144: what TAG, BUF, COUNT and FSM hold after INIT and any sequence of ABSORBs. -/
def Obligations.AccumulatorHoldsTheMessage : Prop :=
  ∀ (s : State) (key : Quad) (cs : List (BitVec 3 × Word)), legalCounts cs → (absorbedBytes cs).length ≤ 2 ^ 64 - 1 →
    ∃ t, runCommands (.init key :: absorbs cs) s = .next t ∧
      t.count.toNat = (absorbedBytes cs).length ∧
      t.fsm = (if absorbedBytes cs = [] then .empty else .absorbing) ∧
      t.tag = accumulated s.rounds key (absorbedBytes cs) ((absorbedBytes cs).length / 16) ∧
      (∀ (k : Nat) (h : k < 16), k < (absorbedBytes cs).length % 16 →
        some t.buf[k] = (absorbedBytes cs)[16 * ((absorbedBytes cs).length / 16) + k]?)

/-- R146: any two splits of one message over ABSORBs leave the same state, that of its bytes absorbed one by one, and so the
same state after FINAL. -/
def Obligations.AbsorbIsIncremental : Prop :=
  ∀ (s : State) (cs cs' : List (BitVec 3 × Word)), legalCounts cs → legalCounts cs' →
    absorbedBytes cs = absorbedBytes cs' → s.InContext → s.busy = false → s.pend = none →
    s.count.toNat + (absorbedBytes cs).length ≤ 2 ^ 64 - 1 →
    ∃ t, runCommands (absorbs cs) s = .next t ∧ runCommands (absorbs cs') s = .next t ∧
      t = { s.absorbBytes (absorbedBytes cs) with fsm := if absorbedBytes cs = [] then s.fsm else .absorbing } ∧
      runCommands (absorbs cs ++ [.final]) s = runCommands (absorbs cs' ++ [.final]) s

/-! ## Finalization (43_finalize.md) -/

/-- R160 to R164: FINALIZE_VALUE on any operands: subkey selection, padding, the owed permutation, whitening; BUF's bytes
from i on never matter; the empty message's padded block. -/
def Obligations.FinalizeValueByItsSteps : Prop :=
  ∀ (r : Rounds) (tag : Quad) (buf : Buffer) (count : BitVec 64) (k1 k2 : Quad),
    (count.toNat ≠ 0 ∧ count.toNat % 16 = 0 → finalizeValue r tag buf count k1 k2 = ((permute r (tag.xor k1)).xor k1, buf)) ∧
    (count.toNat = 0 ∨ count.toNat % 16 ≠ 0 → ∃ P : Buffer,
      (∀ (k : Nat) (h : k < 16), P[k] =
        if k < count.toNat % 16 then buf[k] else if k = count.toNat % 16 then 0x01 else 0x00) ∧
      (count.toNat = 0 → wordView P = ⟨0x00000001, 0, 0, 0⟩) ∧
      finalizeValue r tag buf count k1 k2 =
        ((permute r (((if 16 ≤ count.toNat then permute r tag else tag).xor (wordView P)).xor k2)).xor k2, P) ∧
      (∀ buf' : Buffer, (∀ (k : Nat) (h : k < 16), k < count.toNat % 16 → buf[k] = buf'[k]) →
        finalizeValue r tag buf' count k1 k2 = finalizeValue r tag buf count k1 k2))

/-- FINAL with a Context completes (43_finalize.md, the FINAL command): TAG and TOUT take the tag of `finalizeValue`
(`FinalizeValueByItsSteps`), BUF the padded block, FSM = FINALIZED, and nothing else changes. -/
def Obligations.FinalWritesTheTag : Prop :=
  ∀ s : State, s.InContext → ∃ T P, finalizeValue s.rounds s.tag s.buf s.count s.k1 s.k2 = (T, P) ∧
    exec .final s = .next { s with tag := T, buf := P, tout := T, fsm := .finalized } ∧
    (s.count.toNat ≠ 0 ∧ s.count.toNat % 16 = 0 → P = s.buf)

/-- FINAL.K with a Context completes (43_finalize.md, the FINAL.K command): TOUT takes the tag FINAL would give, and nothing
else changes. -/
def Obligations.FinalKWritesToutAlone : Prop :=
  ∀ s : State, s.InContext → ∃ t, exec .final s = .next t ∧ exec .finalK s = .next { s with tout := t.tout }

/-- FINAL and FINAL.K in UNKEYED or FINALIZED raise ESTATE and change only the error record (43_finalize.md). -/
def Obligations.FinalWithoutAContextRaises : Prop :=
  ∀ s : State, s.OutOfContext →
    exec .final s = .next (s.reject .estate) ∧ exec .finalK s = .next (s.reject .estate)

/-- FINAL.K, then more ABSORBs, then FINAL, ends in the same state as without the FINAL.K (43_finalize.md, the FINAL.K
command's corner case), whatever the ABSORBs are. -/
def Obligations.FinalKLeavesTheMessageUndisturbed : Prop :=
  ∀ (s : State) (cs : List (BitVec 3 × Word)), s.InContext →
    ∃ t, runCommand .finalK s = .next t ∧
      runCommands (absorbs cs ++ [.final]) t = runCommands (absorbs cs ++ [.final]) s

/-- R168: the tag of the empty message. -/
def Obligations.EmptyMessageTag : Prop :=
  ∀ (s : State) (key : Quad), ∃ t, runCommands [.init key, .final] s = .next t ∧ t.tag = t.tout ∧
    t.tout = (permute s.rounds ((key.xor ⟨0x00000001, 0, 0, 0⟩).xor (double (double key)))).xor (double (double key))

/-- The 16-byte message 01 00 ... 00 reaches step 4 with the same value as the empty message and differs from it only by
k1 for k2 (43_finalize.md, branch separation). -/
def Obligations.FullBlockTakesTheOtherSubkey : Prop :=
  ∀ (s : State) (key : Quad), ∃ t,
    runCommands [.init key, .absorb 4 0x00000001, .absorb 4 0, .absorb 4 0, .absorb 4 0, .final] s = .next t ∧
    t.tout = (permute s.rounds ((key.xor ⟨0x00000001, 0, 0, 0⟩).xor (double key))).xor (double key)

/-- R170: the tag of every message, however its bytes are split over ABSORBs, by FINAL and by FINAL.K, is the one-shot
form's. -/
def Obligations.TagIsTheOneShotForm : Prop :=
  ∀ (s : State) (key : Quad) (cs : List (BitVec 3 × Word)), legalCounts cs → (absorbedBytes cs).length ≤ 2 ^ 64 - 1 →
    (∃ t, runCommands (.init key :: absorbs cs ++ [.final]) s = .next t ∧
      t.tout = oneShotTag s.rounds key (absorbedBytes cs) ∧ t.tag = t.tout ∧ t.fsm = .finalized) ∧
    (∃ t, runCommands (.init key :: absorbs cs ++ [.finalK]) s = .next t ∧
      t.tout = oneShotTag s.rounds key (absorbedBytes cs))

/-! ## Control commands (44_control.md) -/

/-- NOP runs in every state and writes nothing (44_control.md, the NOP command). -/
def Obligations.NopWritesNothing : Prop := ∀ s : State, exec .nop s = .next s

/-- The frame every command shares, raising or not: KEY, DIN, BUSY and PEND, the round count, and the outside's lists
are as before, and the command answers a next state. -/
def Obligations.EveryCommandAnswersWithItsFrame : Prop :=
  ∀ (i : Instr) (s : State), ∃ t, exec i s = .next t ∧ t.key = s.key ∧ t.din = s.din ∧ t.busy = s.busy ∧ t.pend = s.pend ∧
    t.rounds = s.rounds ∧ t.events = s.events ∧ t.got = s.got ∧ t.sched = s.sched ∧ t.draws = s.draws

/-! ## Errors (60_exceptions.md) -/

/-- R203: what REJECT does to a clear and to a full record, and that only a STATUS write with bit 1 set or a reset clears or
changes a full one. -/
def Obligations.OnlyTheFirstRejectionIsRecorded : Prop :=
  (∀ (s : State) (e : ErrCode), (s.err = false → s.reject e = { s with err := true, errCode := e }) ∧
    (s.err = true → s.reject e = s)) ∧
  (∀ s t : State, step s = .next t → s.err = true → t.err = false ∨ t.errCode ≠ s.errCode →
    (∃ rest, s.HostMoves .reset rest) ∨ ∃ (v : Word) (rest : List Event), v.getLsbD 1 = true ∧ s.HostMoves (.write 0x04 4 v) rest)

/-- R204: a CMD write either is accepted or changes the error record alone; and a command in flight in a state that meets the
invariant completes without a rejection. -/
def Obligations.AcceptedCommandsNeverFail : Prop :=
  (∀ (s : State) (c : Word), (∃ i, decode c = .ok i ∧ s.presentCommand c = s.accept i) ∨
    s.presentCommand c = { s with err := (s.presentCommand c).err, errCode := (s.presentCommand c).errCode }) ∧
  (∀ (s : State) (p : Pending), s.Inv → s.pend = some p →
    ∃ t, engineStep s = .next t ∧ t.pend = none ∧ t.busy = false ∧ t.err = s.err ∧ t.errCode = s.errCode)

/-- R205: a CMD write is checked in the order EBUSY, EILLEGAL, ESTATE, ECOUNT, and otherwise accepted with its operands
sampled. -/
def Obligations.CmdWriteIsCheckedInOrder : Prop :=
  ∀ (s : State) (rest : List Event) (c : Word), s.HostMoves (.write 0x00 4 c) rest →
    (s.busy = true → step s = .next ((s.afterEvent rest).reject .ebusy)) ∧
    (s.busy = false → ∀ e, decode c = .error e → step s = .next ((s.afterEvent rest).reject .eillegal)) ∧
    (s.busy = false → ∀ i, decode c = .ok i →
      (NeedsContext i → s.OutOfContext → step s = .next ((s.afterEvent rest).reject .estate)) ∧
      (∀ n, i = .absorb n → s.InContext → 2 ^ 64 - 1 < s.count.toNat + n.toNat →
        step s = .next ((s.afterEvent rest).reject .ecount)) ∧
      ((NeedsContext i → s.InContext) → (∀ n, i = .absorb n → s.count.toNat + n.toNat ≤ 2 ^ 64 - 1) →
        ∃ p, step s = .next { s.afterEvent rest with pend := some p, busy := true } ∧ p.instr = i ∧
          (∀ k, p = .init k → k = s.key) ∧ (∀ n d, p = .absorb n d → d = s.din)))

/-! ## Reset, issue and completion (70_reset_and_hazards.md) -/

/-- R230: reset, at any moment, gives every element its reset value, empties PEND, and leaves the build parameter. -/
def Obligations.ResetGivesEveryElementItsValue : Prop :=
  State.reset.AtReset ∧
  ∀ (s : State) (rest : List Event), s.HostMoves .reset rest →
    ∃ t, step s = .next t ∧ t.AtReset ∧ t.rounds = s.rounds ∧ t.events = rest

/-- The engine's step (10_state.md, PEND; 70_reset_and_hazards.md, issue and completion) is the command's rule, PEND then
emptied and BUSY 0, also after a rejection (log 8, in no run); `takeTurn` changes `sched` alone. -/
def Obligations.EngineStepRunsThePendingCommand : Prop :=
  (∀ (s : State) (p : Pending), s.EngineMoves p →
    step s = mapNext (fun t => { t with pend := none, busy := false }) (exec p.instr s.takeTurn)) ∧
  (∀ s : State, s.takeTurn = { s with sched := s.takeTurn.sched }) ∧
  (∀ (s : State), s.busy = s.pend.isSome → s.busy = true → s.events = [] → s.mover = some .engine)

/-- The host's placement of one command word (log 3): the next step runs exactly the instruction the table's decoder reads
from it, with the operands a CMD write would sample; an illegal word is presented to CMD and rejected. -/
def Obligations.PlacedWordIsRunByTheNextStep : Prop :=
  ∀ (s : State) (w : Nat),
    (∀ i, decodeTableWord 32 w = some i → i.wf = true ∧ step (s.withFetchWord 32 w) =
      mapNext (fun t => { t with pend := none, busy := false }) (exec i (s.accept i))) ∧
    (decodeTableWord 32 w = none → step (s.withFetchWord 32 w) =
      .next (s.reject (if s.busy then .ebusy else .eillegal)))

/-- A command in flight stays there, with its operands and BUSY = 1, through every step of the outside but a reset
(70_reset_and_hazards.md: "once PEND holds a command, the engine's step is enabled and stays enabled until it is taken"). -/
def Obligations.CommandStaysInFlightUntilTaken : Prop :=
  ∀ (s t : State) (p : Pending) (e : Event) (rest : List Event), s.pend = some p → s.busy = true → s.HostMoves e rest →
    e ≠ .reset → step s = .next t → t.pend = some p ∧ t.busy = true

/-- WAIT ends (70_reset_and_hazards.md, the fairness of the engine): from every state that meets the invariant, within as
many steps as `sched` has entries and two more. The bound rests on the model's finite `sched` (log 1) and WAIT as one event
(log 13), which are its own choices. -/
def Obligations.WaitAlwaysEnds : Prop :=
  ∀ (s : State) (rest : List Event), s.Inv → s.events = .wait :: rest →
    ∃ (k : Nat) (t : State), k ≤ s.sched.length + 2 ∧ Host.Core.run Sys2Proof.core k s = .next t ∧
      t.events = rest ∧ t.busy = false

/-- The model's reading of a run's end (log 12; 70_reset_and_hazards.md): with nothing in flight and no event left the core
holds its state. -/
def Obligations.IdleCoreHoldsItsState : Prop :=
  ∀ s : State, s.pend = none → s.events = [] → step s = .next s

/-! ## A host read as a step (20_memory.md) -/

/-- The step of a host read of any register, in any state: it appends `readValue` of that register to `got` (log 11),
advances `draws` exactly while BUSY = 1 (log 5), and changes nothing else; both are the model's choices. What `readValue` is,
the other statements say: of STATUS, `StatusReadsByItsLayout`. -/
def Obligations.HostReadAppendsTheRegister : Prop :=
  ∀ (s : State) (r : Reg) (rest : List Event), s.HostMoves (.read r.offset 4) rest →
    step s = .next { s.afterEvent rest with
      draws := if s.busy then s.draws + 1 else s.draws, got := s.got ++ [s.readValue r] }
end

