-- ==== Sys2Proof/Laws/State.lean ====
section
/-! SUPPORT. The small lemmas of the state updates: one per field per shared update, so that no later proof unfolds one.
An update written as a record literal needs none: its projections reduce by themselves. -/

namespace Sys2Proof.Machine

variable (s : State) (e : ErrCode) (i : Instr)

/-! `reject` (R203) writes ERR and ERRCODE only. -/

theorem State.reject_of_clear (h : s.err = false) : s.reject e = { s with err := true, errCode := e } := by
  simp [State.reject, h]

@[simp] theorem State.reject_of_full (h : s.err = true) : s.reject e = s := by simp [State.reject, h]

@[simp] theorem State.reject_tag : (s.reject e).tag = s.tag := by unfold State.reject; split <;> rfl
@[simp] theorem State.reject_key : (s.reject e).key = s.key := by unfold State.reject; split <;> rfl
@[simp] theorem State.reject_k1 : (s.reject e).k1 = s.k1 := by unfold State.reject; split <;> rfl
@[simp] theorem State.reject_k2 : (s.reject e).k2 = s.k2 := by unfold State.reject; split <;> rfl
@[simp] theorem State.reject_buf : (s.reject e).buf = s.buf := by unfold State.reject; split <;> rfl
@[simp] theorem State.reject_count : (s.reject e).count = s.count := by unfold State.reject; split <;> rfl
@[simp] theorem State.reject_fsm : (s.reject e).fsm = s.fsm := by unfold State.reject; split <;> rfl
@[simp] theorem State.reject_din : (s.reject e).din = s.din := by unfold State.reject; split <;> rfl
@[simp] theorem State.reject_tout : (s.reject e).tout = s.tout := by unfold State.reject; split <;> rfl
@[simp] theorem State.reject_busy : (s.reject e).busy = s.busy := by unfold State.reject; split <;> rfl
@[simp] theorem State.reject_pend : (s.reject e).pend = s.pend := by unfold State.reject; split <;> rfl
@[simp] theorem State.reject_rounds : (s.reject e).rounds = s.rounds := by unfold State.reject; split <;> rfl
@[simp] theorem State.reject_events : (s.reject e).events = s.events := by unfold State.reject; split <;> rfl
@[simp] theorem State.reject_got : (s.reject e).got = s.got := by unfold State.reject; split <;> rfl
@[simp] theorem State.reject_sched : (s.reject e).sched = s.sched := by unfold State.reject; split <;> rfl
@[simp] theorem State.reject_draws : (s.reject e).draws = s.draws := by unfold State.reject; split <;> rfl
@[simp] theorem State.reject_err : (s.reject e).err = true := by unfold State.reject; split <;> simp [*]
theorem State.reject_errCode : (s.reject e).errCode = if s.err then s.errCode else e := by unfold State.reject; split <;> rfl

/-! `accept` (R233) writes PEND and BUSY only. -/

@[simp] theorem State.accept_pend : (s.accept i).pend = some (s.sample i) := rfl
@[simp] theorem State.accept_busy : (s.accept i).busy = true := rfl
@[simp] theorem State.accept_tag : (s.accept i).tag = s.tag := rfl
@[simp] theorem State.accept_key : (s.accept i).key = s.key := rfl
@[simp] theorem State.accept_k1 : (s.accept i).k1 = s.k1 := rfl
@[simp] theorem State.accept_k2 : (s.accept i).k2 = s.k2 := rfl
@[simp] theorem State.accept_buf : (s.accept i).buf = s.buf := rfl
@[simp] theorem State.accept_count : (s.accept i).count = s.count := rfl
@[simp] theorem State.accept_fsm : (s.accept i).fsm = s.fsm := rfl
@[simp] theorem State.accept_din : (s.accept i).din = s.din := rfl
@[simp] theorem State.accept_tout : (s.accept i).tout = s.tout := rfl
@[simp] theorem State.accept_err : (s.accept i).err = s.err := rfl
@[simp] theorem State.accept_errCode : (s.accept i).errCode = s.errCode := rfl
@[simp] theorem State.accept_rounds : (s.accept i).rounds = s.rounds := rfl
@[simp] theorem State.accept_events : (s.accept i).events = s.events := rfl
@[simp] theorem State.accept_got : (s.accept i).got = s.got := rfl
@[simp] theorem State.accept_sched : (s.accept i).sched = s.sched := rfl
@[simp] theorem State.accept_draws : (s.accept i).draws = s.draws := rfl

/-! `complete` (R233) writes PEND and BUSY only. -/

@[simp] theorem State.complete_pend : (s.complete).pend = none := rfl
@[simp] theorem State.complete_busy : (s.complete).busy = false := rfl
@[simp] theorem State.complete_tag : (s.complete).tag = s.tag := rfl
@[simp] theorem State.complete_key : (s.complete).key = s.key := rfl
@[simp] theorem State.complete_k1 : (s.complete).k1 = s.k1 := rfl
@[simp] theorem State.complete_k2 : (s.complete).k2 = s.k2 := rfl
@[simp] theorem State.complete_buf : (s.complete).buf = s.buf := rfl
@[simp] theorem State.complete_count : (s.complete).count = s.count := rfl
@[simp] theorem State.complete_fsm : (s.complete).fsm = s.fsm := rfl
@[simp] theorem State.complete_din : (s.complete).din = s.din := rfl
@[simp] theorem State.complete_tout : (s.complete).tout = s.tout := rfl
@[simp] theorem State.complete_err : (s.complete).err = s.err := rfl
@[simp] theorem State.complete_errCode : (s.complete).errCode = s.errCode := rfl
@[simp] theorem State.complete_rounds : (s.complete).rounds = s.rounds := rfl
@[simp] theorem State.complete_events : (s.complete).events = s.events := rfl
@[simp] theorem State.complete_got : (s.complete).got = s.got := rfl
@[simp] theorem State.complete_sched : (s.complete).sched = s.sched := rfl
@[simp] theorem State.complete_draws : (s.complete).draws = s.draws := rfl

/-! `clearError` (R49) writes ERR and ERRCODE only. -/

@[simp] theorem State.clearError_err : (s.clearError).err = false := rfl
@[simp] theorem State.clearError_errCode : (s.clearError).errCode = .noError := rfl
@[simp] theorem State.clearError_tag : (s.clearError).tag = s.tag := rfl
@[simp] theorem State.clearError_key : (s.clearError).key = s.key := rfl
@[simp] theorem State.clearError_k1 : (s.clearError).k1 = s.k1 := rfl
@[simp] theorem State.clearError_k2 : (s.clearError).k2 = s.k2 := rfl
@[simp] theorem State.clearError_buf : (s.clearError).buf = s.buf := rfl
@[simp] theorem State.clearError_count : (s.clearError).count = s.count := rfl
@[simp] theorem State.clearError_fsm : (s.clearError).fsm = s.fsm := rfl
@[simp] theorem State.clearError_din : (s.clearError).din = s.din := rfl
@[simp] theorem State.clearError_tout : (s.clearError).tout = s.tout := rfl
@[simp] theorem State.clearError_busy : (s.clearError).busy = s.busy := rfl
@[simp] theorem State.clearError_pend : (s.clearError).pend = s.pend := rfl
@[simp] theorem State.clearError_rounds : (s.clearError).rounds = s.rounds := rfl
@[simp] theorem State.clearError_events : (s.clearError).events = s.events := rfl
@[simp] theorem State.clearError_got : (s.clearError).got = s.got := rfl
@[simp] theorem State.clearError_sched : (s.clearError).sched = s.sched := rfl
@[simp] theorem State.clearError_draws : (s.clearError).draws = s.draws := rfl

/-! `takeTurn` writes the model's own `sched` only. -/

theorem State.takeTurn_eq : s.takeTurn = { s with sched := s.takeTurn.sched } := by
  unfold State.takeTurn; split <;> rfl

@[simp] theorem State.takeTurn_tag : s.takeTurn.tag = s.tag := by rw [State.takeTurn_eq]
@[simp] theorem State.takeTurn_key : s.takeTurn.key = s.key := by rw [State.takeTurn_eq]
@[simp] theorem State.takeTurn_k1 : s.takeTurn.k1 = s.k1 := by rw [State.takeTurn_eq]
@[simp] theorem State.takeTurn_k2 : s.takeTurn.k2 = s.k2 := by rw [State.takeTurn_eq]
@[simp] theorem State.takeTurn_buf : s.takeTurn.buf = s.buf := by rw [State.takeTurn_eq]
@[simp] theorem State.takeTurn_count : s.takeTurn.count = s.count := by rw [State.takeTurn_eq]
@[simp] theorem State.takeTurn_fsm : s.takeTurn.fsm = s.fsm := by rw [State.takeTurn_eq]
@[simp] theorem State.takeTurn_din : s.takeTurn.din = s.din := by rw [State.takeTurn_eq]
@[simp] theorem State.takeTurn_tout : s.takeTurn.tout = s.tout := by rw [State.takeTurn_eq]
@[simp] theorem State.takeTurn_busy : s.takeTurn.busy = s.busy := by rw [State.takeTurn_eq]
@[simp] theorem State.takeTurn_err : s.takeTurn.err = s.err := by rw [State.takeTurn_eq]
@[simp] theorem State.takeTurn_errCode : s.takeTurn.errCode = s.errCode := by rw [State.takeTurn_eq]
@[simp] theorem State.takeTurn_pend : s.takeTurn.pend = s.pend := by rw [State.takeTurn_eq]
@[simp] theorem State.takeTurn_rounds : s.takeTurn.rounds = s.rounds := by rw [State.takeTurn_eq]
@[simp] theorem State.takeTurn_events : s.takeTurn.events = s.events := by rw [State.takeTurn_eq]
@[simp] theorem State.takeTurn_got : s.takeTurn.got = s.got := by rw [State.takeTurn_eq]
@[simp] theorem State.takeTurn_draws : s.takeTurn.draws = s.draws := by rw [State.takeTurn_eq]

theorem State.takeTurn_of_idle (h : s.pend = none) : s.takeTurn = s := by simp [State.takeTurn, h]

theorem State.takeTurn_of_no_event (h : s.events = []) : s.takeTurn = s := by
  unfold State.takeTurn; split <;> simp_all

/-! The sampled operands (R62). -/

@[simp] theorem State.sample_instr : (s.sample i).instr = i := by cases i <;> rfl

@[simp] theorem State.accept_kin : (s.accept .init).kin = s.key := rfl

@[simp] theorem State.accept_absorbData (n : BitVec 3) : (s.accept (.absorb n)).absorbData = s.din := rfl

/-! The elements of R20 after a reset (R230). -/

@[simp] theorem State.resetCore_rounds : s.resetCore.rounds = s.rounds := rfl
@[simp] theorem State.resetCore_events : s.resetCore.events = s.events := rfl

theorem State.resetCore_atReset : s.resetCore.AtReset := by
  refine ⟨rfl, rfl, rfl, rfl, rfl, rfl, rfl, rfl, rfl, rfl, rfl, rfl, rfl⟩

end Sys2Proof.Machine
end

