-- ==== Sys2Proof/Laws/Exec.lean ====
section
/-! SUPPORT. What one command can do: the shape of ABSORB's byte loop, and one inversion lemma for `exec`. -/

namespace Sys2Proof.Machine

/-! ## Bytes and blocks (R140 to R142) -/

/-- ABSORB_BYTE writes BUF, COUNT and TAG only. -/
theorem State.absorbByte_frame (s : State) (b : Byte) :
    s.absorbByte b = { s with tag := (s.absorbByte b).tag, buf := (s.absorbByte b).buf, count := s.count + 1 } := by
  unfold State.absorbByte State.mixBlock
  dsimp only
  split <;> rfl

theorem State.absorbByte_buf (s : State) (b : Byte) :
    (s.absorbByte b).buf = s.buf.set (s.count.toNat % 16) b (Nat.mod_lt _ (by decide)) := by
  unfold State.absorbByte State.mixBlock
  dsimp only
  split <;> rfl

theorem State.absorbByte_tag (s : State) (b : Byte) :
    (s.absorbByte b).tag =
      if s.count.toNat % 16 = 15 then
        (if s.count + 1 - 16 ≠ 0 then permute s.rounds s.tag else s.tag).xor
          (wordView (s.buf.set (s.count.toNat % 16) b (Nat.mod_lt _ (by decide))))
      else s.tag := by
  unfold State.absorbByte State.mixBlock State.fillIndex
  dsimp only
  split <;> rfl

@[simp] theorem State.absorbByte_count (s : State) (b : Byte) : (s.absorbByte b).count = s.count + 1 := by
  rw [s.absorbByte_frame]

@[simp] theorem State.absorbBytes_nil (s : State) : s.absorbBytes [] = s := rfl

@[simp] theorem State.absorbBytes_cons (s : State) (b : Byte) (bs : List Byte) :
    s.absorbBytes (b :: bs) = (s.absorbByte b).absorbBytes bs := rfl

theorem State.absorbBytes_append (s : State) (bs cs : List Byte) :
    s.absorbBytes (bs ++ cs) = (s.absorbBytes bs).absorbBytes cs := by
  simp [State.absorbBytes]

theorem State.absorbBytes_count (s : State) (bs : List Byte) :
    (s.absorbBytes bs).count = s.count + BitVec.ofNat 64 bs.length := by
  induction bs generalizing s with
  | nil => simp
  | cons b bs ih =>
    rw [State.absorbBytes_cons, ih, State.absorbByte_count, List.length_cons, Nat.add_comm, BitVec.ofNat_add,
      BitVec.add_assoc]
    rfl

/-- Absorbing bytes writes BUF, COUNT and TAG only. -/
theorem State.absorbBytes_frame (s : State) (bs : List Byte) :
    s.absorbBytes bs =
      { s with tag := (s.absorbBytes bs).tag, buf := (s.absorbBytes bs).buf, count := (s.absorbBytes bs).count } := by
  induction bs generalizing s with
  | nil => rfl
  | cons b bs ih =>
    rw [State.absorbBytes_cons, ih, s.absorbByte_frame]

@[simp] theorem State.absorbBytes_key (s : State) (bs : List Byte) : (s.absorbBytes bs).key = s.key := by
  rw [s.absorbBytes_frame]
@[simp] theorem State.absorbBytes_k1 (s : State) (bs : List Byte) : (s.absorbBytes bs).k1 = s.k1 := by
  rw [s.absorbBytes_frame]
@[simp] theorem State.absorbBytes_k2 (s : State) (bs : List Byte) : (s.absorbBytes bs).k2 = s.k2 := by
  rw [s.absorbBytes_frame]
@[simp] theorem State.absorbBytes_fsm (s : State) (bs : List Byte) : (s.absorbBytes bs).fsm = s.fsm := by
  rw [s.absorbBytes_frame]
@[simp] theorem State.absorbBytes_din (s : State) (bs : List Byte) : (s.absorbBytes bs).din = s.din := by
  rw [s.absorbBytes_frame]
@[simp] theorem State.absorbBytes_tout (s : State) (bs : List Byte) : (s.absorbBytes bs).tout = s.tout := by
  rw [s.absorbBytes_frame]
@[simp] theorem State.absorbBytes_busy (s : State) (bs : List Byte) : (s.absorbBytes bs).busy = s.busy := by
  rw [s.absorbBytes_frame]
@[simp] theorem State.absorbBytes_err (s : State) (bs : List Byte) : (s.absorbBytes bs).err = s.err := by
  rw [s.absorbBytes_frame]
@[simp] theorem State.absorbBytes_errCode (s : State) (bs : List Byte) : (s.absorbBytes bs).errCode = s.errCode := by
  rw [s.absorbBytes_frame]
@[simp] theorem State.absorbBytes_pend (s : State) (bs : List Byte) : (s.absorbBytes bs).pend = s.pend := by
  rw [s.absorbBytes_frame]
@[simp] theorem State.absorbBytes_rounds (s : State) (bs : List Byte) : (s.absorbBytes bs).rounds = s.rounds := by
  rw [s.absorbBytes_frame]
@[simp] theorem State.absorbBytes_events (s : State) (bs : List Byte) : (s.absorbBytes bs).events = s.events := by
  rw [s.absorbBytes_frame]
@[simp] theorem State.absorbBytes_got (s : State) (bs : List Byte) : (s.absorbBytes bs).got = s.got := by
  rw [s.absorbBytes_frame]
@[simp] theorem State.absorbBytes_sched (s : State) (bs : List Byte) : (s.absorbBytes bs).sched = s.sched := by
  rw [s.absorbBytes_frame]
@[simp] theorem State.absorbBytes_draws (s : State) (bs : List Byte) : (s.absorbBytes bs).draws = s.draws := by
  rw [s.absorbBytes_frame]

/-- The bytes absorbed, COUNT, TAG and BUF depend on nothing but COUNT, TAG, BUF and the round count. -/
theorem State.absorbBytes_congr (s t : State) (bs : List Byte) (htag : s.tag = t.tag) (hbuf : s.buf = t.buf)
    (hcount : s.count = t.count) (hr : s.rounds = t.rounds) :
    (s.absorbBytes bs).tag = (t.absorbBytes bs).tag ∧ (s.absorbBytes bs).buf = (t.absorbBytes bs).buf ∧
      (s.absorbBytes bs).count = (t.absorbBytes bs).count := by
  induction bs generalizing s t with
  | nil => exact ⟨htag, hbuf, hcount⟩
  | cons b bs ih =>
    refine ih _ _ ?_ ?_ ?_ ?_
    · simp only [State.absorbByte_tag, htag, hbuf, hcount, hr]
    · simp only [State.absorbByte_buf, hbuf, hcount]
    · simp only [State.absorbByte_count, hcount]
    · rw [s.absorbByte_frame, t.absorbByte_frame]; exact hr

@[simp] theorem dinBytes_length (d : Word) (n : Nat) : (dinBytes d n).length = n := by simp [dinBytes]

/-! ## One command -/

/-- ABSORB's effect when it does not raise (R143). -/
def absorbed (n : BitVec 3) (s : State) : State :=
  let t := s.absorbBytes (dinBytes s.absorbData n.toNat)
  { t with fsm := if 1 ≤ n then .absorbing else s.fsm }

theorem absorbed_eq (n : BitVec 3) (s : State) :
    (if 1 ≤ n then { s.absorbBytes (dinBytes s.absorbData n.toNat) with fsm := .absorbing }
      else s.absorbBytes (dinBytes s.absorbData n.toNat)) = absorbed n s := by
  unfold absorbed
  split
  · rfl
  · ext1 <;> simp

/-- What a command does when it does not raise: its rule's writes and no other. -/
def effect (i : Instr) (s : State) : State :=
  match i with
  | .nop => s
  | .init => { s with k1 := double s.kin, k2 := double (double s.kin), tag := s.kin, count := 0, fsm := .empty }
  | .absorb n => absorbed n s
  | .final =>
    { s with tag := s.finalizeValue.1, buf := s.finalizeValue.2, tout := s.finalizeValue.1, fsm := .finalized }
  | .finalK => { s with tout := s.finalizeValue.1 }
  | .perm => { s with tag := permute s.rounds s.tag }

/-- A legal command that passes its checks has its effect. -/
theorem exec_of_admissible {i : Instr} {s : State} (hwf : i.wf = true) (h : s.commandError i = none) :
    exec i s = .next (effect i s) := by
  cases i with
  | nop => rfl
  | init => rfl
  | perm => rfl
  | final =>
    cases hc : s.fsm.hasContext <;> simp_all [State.commandError, exec, execFinal, effect]
  | finalK =>
    cases hc : s.fsm.hasContext <;> simp_all [State.commandError, exec, execFinalK, effect]
  | absorb n =>
    have hn : ¬ 4 < n := by simpa [Instr.wf, BitVec.not_lt] using hwf
    cases hc : s.fsm.hasContext <;> cases ho : s.countWouldPass n <;>
      simp_all only [State.commandError, Bool.not_true, Bool.not_false, if_true, Bool.false_eq_true, if_false,
        reduceCtorEq]
    simp only [exec, execAbsorb, hn, hc, ho, if_false, Bool.not_true, Bool.false_eq_true, effect, absorbed_eq]

/-- A legal command that fails a check records it and does nothing else. -/
theorem exec_of_error {i : Instr} {s : State} {e : ErrCode} (hwf : i.wf = true) (h : s.commandError i = some e) :
    exec i s = .next (s.reject e) := by
  cases i with
  | nop => simp [State.commandError] at h
  | init => simp [State.commandError] at h
  | perm => simp [State.commandError] at h
  | final =>
    cases hc : s.fsm.hasContext <;> simp_all [State.commandError, exec, execFinal]
  | finalK =>
    cases hc : s.fsm.hasContext <;> simp_all [State.commandError, exec, execFinalK]
  | absorb n =>
    have hn : ¬ 4 < n := by simpa [Instr.wf, BitVec.not_lt] using hwf
    cases hc : s.fsm.hasContext <;> cases ho : s.countWouldPass n <;>
      simp_all [State.commandError, exec, execAbsorb]

/-- A term that is no command is rejected EILLEGAL (log 9). -/
theorem exec_of_ill_formed {i : Instr} {s : State} (hwf : i.wf = false) : exec i s = .next (s.reject .eillegal) := by
  cases i with
  | absorb n =>
    have hn : 4 < n := by simpa [Instr.wf, BitVec.not_le] using hwf
    simp only [exec, execAbsorb, if_pos hn]
  | nop => simp [Instr.wf] at hwf
  | init => simp [Instr.wf] at hwf
  | final => simp [Instr.wf] at hwf
  | finalK => simp [Instr.wf] at hwf
  | perm => simp [Instr.wf] at hwf

/-- All that `exec` can do: its effect, or one rejection. Every later proof about commands starts here. -/
theorem exec_cases (i : Instr) (s : State) :
    (i.wf = true ∧ s.commandError i = none ∧ exec i s = .next (effect i s)) ∨
    (∃ e, i.wf = true ∧ s.commandError i = some e ∧ exec i s = .next (s.reject e)) ∨
    (i.wf = false ∧ exec i s = .next (s.reject .eillegal)) := by
  cases hwf : i.wf with
  | false => exact .inr (.inr ⟨rfl, exec_of_ill_formed hwf⟩)
  | true =>
    cases h : s.commandError i with
    | none => exact .inl ⟨rfl, rfl, exec_of_admissible hwf h⟩
    | some e => exact .inr (.inl ⟨e, rfl, rfl, exec_of_error hwf h⟩)

/-- The frame every effect shares. -/
theorem effect_frame (i : Instr) (s : State) :
    effect i s = { s with
      tag := (effect i s).tag, k1 := (effect i s).k1, k2 := (effect i s).k2, buf := (effect i s).buf,
      count := (effect i s).count, fsm := (effect i s).fsm, tout := (effect i s).tout } := by
  cases i with
  | absorb n =>
    simp only [effect, absorbed]
    rw [State.absorbBytes_frame]
  | nop => rfl
  | init => rfl
  | final => rfl
  | finalK => rfl
  | perm => rfl

theorem effect_absorb_frame (n : BitVec 3) (s : State) :
    effect (.absorb n) s = { s with
      tag := (effect (.absorb n) s).tag, buf := (effect (.absorb n) s).buf,
      count := s.count + BitVec.ofNat 64 n.toNat, fsm := if 1 ≤ n then .absorbing else s.fsm } := by
  simp only [effect, absorbed]
  rw [State.absorbBytes_frame]
  simp [State.absorbBytes_count]

/-- A command's checks pass in a state with a Context and room in COUNT. -/
theorem State.commandError_of_context {s : State} (i : Instr) (h : s.InContext)
    (hc : ∀ n, i = .absorb n → s.count.toNat + n.toNat ≤ 2 ^ 64 - 1) : s.commandError i = none := by
  have hx : s.fsm.hasContext = true := by rcases h with h | h <;> simp [h, Fsm.hasContext]
  cases i with
  | absorb n =>
    have := hc n rfl
    have ho : s.countWouldPass n = false := by simp [State.countWouldPass]; omega
    simp [State.commandError, hx, ho]
  | nop => rfl
  | init => rfl
  | perm => rfl
  | final => simp [State.commandError, hx]
  | finalK => simp [State.commandError, hx]

theorem Fsm.hasContext_iff (f : Fsm) : f.hasContext = true ↔ f = .empty ∨ f = .absorbing := by
  cases f <;> simp [Fsm.hasContext]

theorem Fsm.hasContext_false_iff (f : Fsm) : f.hasContext = false ↔ f = .unkeyed ∨ f = .finalized := by
  cases f <;> simp [Fsm.hasContext]

/-- The checks read FSM and COUNT only. -/
theorem State.commandError_congr {s t : State} (i : Instr) (hf : s.fsm = t.fsm) (hc : s.count = t.count) :
    s.commandError i = t.commandError i := by
  cases i <;> simp [State.commandError, State.countWouldPass, hf, hc]

end Sys2Proof.Machine
end

