-- ==== Sys2Proof/Laws/PerInstr.lean ====
section
/-! SUPPORT. One statement per command about its word: the four fields of `encode i` are the command's own
(spec/30_encoding.md R71 to R74), and the word decodes exactly when the command is legal. -/

/-- The fields of i's command word, RSV = 0, and whether the word decodes. -/
def Sys2Proof.Laws.EncodeFields.Statement (i : Sys2Proof.Instr) : Prop :=
  Sys2Proof.opField (Sys2Proof.encode i) = i.op ∧ Sys2Proof.countField (Sys2Proof.encode i) = i.count ∧
  Sys2Proof.keepField (Sys2Proof.encode i) = i.keep ∧ Sys2Proof.reservedField (Sys2Proof.encode i) = 0 ∧
  (Sys2Proof.decode (Sys2Proof.encode i) = .ok i ↔ i.wf = true)

namespace Sys2Proof.Laws.EncodeFields

theorem nop : Statement .nop := by unfold Statement; decide

theorem init : Statement .init := by unfold Statement; decide

theorem absorb (n : BitVec 3) : Statement (.absorb n) := by
  unfold Statement
  revert n
  decide

theorem final : Statement .final := by unfold Statement; decide

theorem finalK : Statement .finalK := by unfold Statement; decide

theorem perm : Statement .perm := by unfold Statement; decide

end Sys2Proof.Laws.EncodeFields
end

