-- ==== Sys2Proof/Laws/Step.lean ====
section
/-! SUPPORT. What one step can do: inversion lemmas for a CMD write, the outside's step, the engine's step and `step`. -/

namespace Sys2Proof.Machine

/-! ## A CMD write (R205) -/

/-- A CMD write is accepted, or it is one rejection. -/
theorem State.presentCommand_cases (c : Word) (s : State) :
    (∃ i, s.busy = false ∧ decode c = .ok i ∧ s.commandError i = none ∧ s.presentCommand c = s.accept i) ∨
    (∃ e, s.presentCommand c = s.reject e) := by
  unfold State.presentCommand
  cases hb : s.busy with
  | true => exact .inr ⟨.ebusy, by simp⟩
  | false =>
    cases hd : decode c with
    | error e => exact .inr ⟨.eillegal, by simp⟩
    | ok i =>
      cases hc : s.commandError i with
      | none => exact .inl ⟨i, rfl, rfl, hc, by simp [hc]⟩
      | some e => exact .inr ⟨e, by simp [hc]⟩

theorem State.presentCommand_of_busy {c : Word} {s : State} (h : s.busy = true) :
    s.presentCommand c = s.reject .ebusy := by simp [State.presentCommand, h]

theorem State.presentCommand_of_illegal {c : Word} {s : State} {e : DecodeError} (h : s.busy = false)
    (hd : decode c = .error e) : s.presentCommand c = s.reject .eillegal := by simp [State.presentCommand, h, hd]

theorem State.presentCommand_of_legal {c : Word} {s : State} {i : Instr} (h : s.busy = false)
    (hd : decode c = .ok i) : s.presentCommand c =
      match s.commandError i with
      | some e => s.reject e
      | none => s.accept i := by
  unfold State.presentCommand
  rw [h, hd]
  rfl

/-! ## The outside's step -/

theorem Reg.ofOffset_offset (r : Reg) : Reg.ofOffset r.offset = some r := by
  cases r <;> first | rfl | (rename_i j; fin_cases j <;> rfl)

theorem accessedReg_of_offset {off : Nat} {r : Reg} (h4 : off % 4 = 0) (h : Reg.ofOffset off = some r) :
    accessedReg off 4 = .next r := by simp [accessedReg, h4, h]

theorem accessedReg_cases {off width : Nat} {r : Reg} (h : accessedReg off width = .next r) :
    width = 4 ∧ off % 4 = 0 ∧ Reg.ofOffset off = some r := by
  unfold accessedReg at h
  split at h
  · cases h
  · rename_i hw
    split at h
    · rename_i r' hr
      cases h
      exact ⟨by omega, by omega, hr⟩
    · cases h

/-- All that the outside's step can do. -/
theorem State.hostStep_cases {s t : State} {e : Event} {rest : List Event} (he : s.events = e :: rest)
    (h : s.hostStep = .next t) :
    (∃ off v r, e = .write off 4 v ∧ off % 4 = 0 ∧ Reg.ofOffset off = some r ∧
      t = State.writeReg r v { s with events := rest }) ∨
    (∃ off r, e = .read off 4 ∧ off % 4 = 0 ∧ Reg.ofOffset off = some r ∧
      t = { State.afterRead { s with events := rest } with got := s.got ++ [s.readValue r] }) ∨
    (e = .wait ∧ t = s.hostWait rest) ∨
    (e = .reset ∧ t = State.resetCore { s with events := rest }) := by
  unfold State.hostStep at h
  rw [he] at h
  cases e with
  | write off width v =>
    simp only [State.hostWrite] at h
    split at h
    · rename_i r hr
      obtain ⟨rfl, h4, ho⟩ := accessedReg_cases hr
      cases h
      exact .inl ⟨off, v, r, rfl, h4, ho, rfl⟩
    · cases h
    · cases h
  | read off width =>
    simp only [State.hostRead] at h
    split at h
    · rename_i r hr
      obtain ⟨rfl, h4, ho⟩ := accessedReg_cases hr
      cases h
      refine .inr (.inl ⟨off, r, rfl, h4, ho, ?_⟩)
      cases r <;> rfl
    · cases h
    · cases h
  | wait =>
    cases h
    exact .inr (.inr (.inl ⟨rfl, rfl⟩))
  | reset =>
    cases h
    exact .inr (.inr (.inr ⟨rfl, rfl⟩))

/-- A read changes no more than the count of free draws. -/
theorem State.afterRead_eq (s : State) : s.afterRead = { s with draws := s.afterRead.draws } := by
  unfold State.afterRead
  split <;> rfl

/-- Bit 0 of STATUS is BUSY (R48). -/
theorem statusLayout_busy (busy err : Bool) (code : BitVec 3) (fsm : BitVec 2) (fill : BitVec 4) :
    (statusLayout busy err code fsm fill).getLsbD 0 = busy := by
  simp only [statusLayout, BitVec.getLsbD_append]
  cases busy <;> simp

theorem State.hostWait_eq (s : State) (rest : List Event) :
    s.hostWait rest =
      { s with draws := s.afterRead.draws, events := if s.busy = true then s.events else rest } := by
  have hb : (s.readValue .status).getLsbD 0 = s.busy := by
    unfold State.readValue State.peekBusy State.peek State.status State.statusFree
    cases h : s.busy <;> simp only [Bool.false_eq_true, if_true, if_false, statusLayout_busy]
  unfold State.hostWait
  rw [hb, s.afterRead_eq]
  cases s.busy <;> rfl

/-- A write to a register other than CMD leaves PEND, BUSY and the Context alone. -/
theorem State.writeReg_frame (r : Reg) (v : Word) (s : State) (hr : r ≠ .cmd) :
    s.writeReg r v = { s with
      din := (s.writeReg r v).din, key := (s.writeReg r v).key, err := (s.writeReg r v).err,
      errCode := (s.writeReg r v).errCode } := by
  cases r with
  | status =>
    simp only [State.writeReg]
    split <;> rfl
  | cmd => exact absurd rfl hr
  | din => rfl
  | cfg => rfl
  | key j => rfl
  | tag j => rfl
  | k1 j => rfl
  | k2 j => rfl
  | tout j => rfl
  | countLo => rfl
  | countHi => rfl
  | reserved j => rfl

/-! ## Whose turn it is -/

theorem State.mover_of_idle {s : State} {e : Event} {rest : List Event} (hp : s.pend = none)
    (he : s.events = e :: rest) : s.mover = some .host := by simp [State.mover, hp, he]

theorem State.mover_of_no_event {s : State} {p : Pending} (hp : s.pend = some p) (he : s.events = []) :
    s.mover = some .engine := by simp [State.mover, hp, he]

theorem State.mover_of_both {s : State} {p : Pending} {e : Event} {rest : List Event} (hp : s.pend = some p)
    (he : s.events = e :: rest) : s.mover = some (s.sched.head?.getD .engine) := by simp [State.mover, hp, he]

theorem State.mover_none {s : State} (h : s.mover = none) : s.pend = none ∧ s.events = [] := by
  unfold State.mover at h
  split at h <;> simp_all

theorem State.mover_host {s : State} (h : s.mover = some .host) : ∃ e rest, s.events = e :: rest := by
  unfold State.mover at h
  split at h <;> simp_all

theorem State.mover_engine {s : State} (h : s.mover = some .engine) : ∃ p, s.pend = some p := by
  unfold State.mover at h
  split at h <;> simp_all

/-! ## The step -/

theorem step_of_engine {s : State} {p : Pending} (h : s.EngineMoves p) :
    step s = mapNext State.complete (exec p.instr s.takeTurn) := by
  simp [step, h.1, engineStep, h.2]

theorem step_of_host {s : State} {e : Event} {rest : List Event} (h : s.HostMoves e rest) :
    step s = s.takeTurn.hostStep := by simp [step, h.1]

/-- Reading a register depends on neither the outside's list nor the turns. -/
theorem State.readValue_turn (s : State) (es : List Event) (r : Reg) :
    State.readValue { s.takeTurn with events := es } r = s.readValue r := by
  rw [s.takeTurn_eq]
  cases r <;> rfl

theorem State.afterRead_turn (s : State) (es : List Event) :
    State.afterRead { s.takeTurn with events := es } =
      { s.takeTurn with events := es, draws := s.afterRead.draws } := by
  rw [s.takeTurn_eq]
  unfold State.afterRead
  cases s.busy <;> rfl

/-- A host read of a register, as a step. -/
theorem step_read {s : State} {off : Nat} {rest : List Event} {r : Reg} (h : s.HostMoves (.read off 4) rest)
    (h4 : off % 4 = 0) (hr : Reg.ofOffset off = some r) :
    step s = .next { s.afterEvent rest with draws := s.afterRead.draws, got := s.got ++ [s.readValue r] } := by
  rw [step_of_host h]
  have he : s.takeTurn.events = .read off 4 :: rest := by simp [h.2]
  unfold State.hostStep State.hostRead
  rw [he]
  dsimp only
  rw [accessedReg_of_offset h4 hr]
  dsimp only
  rw [State.readValue_turn, State.afterRead_turn, State.takeTurn_got]

/-- A host write of a register, as a step. -/
theorem step_write {s : State} {off : Nat} {rest : List Event} {r : Reg} {v : Word}
    (h : s.HostMoves (.write off 4 v) rest) (h4 : off % 4 = 0) (hr : Reg.ofOffset off = some r) :
    step s = .next (State.writeReg r v (s.afterEvent rest)) := by
  rw [step_of_host h]
  have he : s.takeTurn.events = .write off 4 v :: rest := by simp [h.2]
  simp only [State.hostStep, he, State.hostWrite, accessedReg_of_offset h4 hr]

/-- All that a step can do. -/
theorem step_cases {s t : State} (h : step s = .next t) :
    (s.mover = none ∧ t = s) ∨
    (∃ p, s.EngineMoves p ∧ ∃ u, exec p.instr s.takeTurn = .next u ∧ t = u.complete) ∨
    (∃ e rest, s.HostMoves e rest ∧ s.takeTurn.hostStep = .next t) := by
  cases hm : s.mover with
  | none =>
    simp only [step, hm] at h
    cases h
    exact .inl ⟨rfl, rfl⟩
  | some a =>
    cases a with
    | host =>
      obtain ⟨e, rest, he⟩ := State.mover_host hm
      exact .inr (.inr ⟨e, rest, ⟨hm, he⟩, by rw [← step_of_host ⟨hm, he⟩]; exact h⟩)
    | engine =>
      obtain ⟨p, hp⟩ := State.mover_engine hm
      rw [step_of_engine ⟨hm, hp⟩] at h
      cases hx : exec p.instr s.takeTurn with
      | next u =>
        rw [hx] at h
        cases h
        exact .inr (.inl ⟨p, ⟨hm, hp⟩, u, hx, rfl⟩)
      | fault r => rw [hx] at h; cases h
      | refused r => rw [hx] at h; cases h

end Sys2Proof.Machine
end

