-- ==== Sys2Proof/Laws/Run.lean ====
section
/-! SUPPORT. Runs of several steps, and the two steps a wait is made of (spec/70_reset_and_hazards.md R233). -/

namespace Sys2Proof.Machine

theorem run_succ {M : Host.Core} {k : Nat} {s t : M.State} (h : M.step s = .next t) : M.run (k + 1) s = M.run k t := by
  simp only [Host.Core.run, h]

/-- One step of the core taken off the front of a run. -/
theorem core_run_succ {k : Nat} {s t : State} (h : step s = .next t) :
    Host.Core.run Sys2Proof.core (k + 1) s = Host.Core.run Sys2Proof.core k t :=
  run_succ (M := Sys2Proof.core) h

theorem run_add {M : Host.Core} {k l : Nat} {s t : M.State} (h : M.run k s = .next t) : M.run (k + l) s = M.run l t := by
  induction k generalizing s with
  | zero =>
    simp only [Host.Core.run, Host.Outcome.next.injEq] at h
    rw [Nat.zero_add, h]
  | succ k ih =>
    rw [Nat.add_right_comm]
    simp only [Host.Core.run] at h ⊢
    cases hs : M.step s with
    | next u => rw [hs] at h; exact ih h
    | fault r => rw [hs] at h; cases h
    | refused r => rw [hs] at h; cases h

/-- WAIT, as the outside's step. -/
theorem step_wait {s : State} {rest : List Event} (h : s.HostMoves .wait rest) :
    step s = .next (s.takeTurn.hostWait rest) := by
  rw [step_of_host h]
  have he : s.takeTurn.events = .wait :: rest := by simp [h.2]
  unfold State.hostStep
  rw [he]

/-- The engine's step in a state that meets the invariant: the command's effect, and completion. -/
theorem step_engine_of_inv {s : State} {p : Pending} (hi : s.Inv) (h : s.EngineMoves p) :
    step s = .next (effect p.instr s.takeTurn).complete := by
  rw [step_of_engine h]
  obtain ⟨hw, hc⟩ := hi.pend_admissible p h.2
  rw [exec_of_admissible hw
    ((State.commandError_congr (s := s.takeTurn) (t := s) p.instr (by simp) (by simp)).trans hc)]
  rfl

end Sys2Proof.Machine
end

