-- ==== Sys2Proof/Tests/Slice0.lean ====
section
/-! SUPPORT. Tests of the model: expected values are spec/95_test_vectors.md's rows or hand calculation from the rule
named. The last part gives, for each obligation with hypotheses, a state that meets them. -/

namespace Sys2Proof.Tests

open Sys2Proof Sys2Proof.Machine

/-! ## Small states -/

/-- K_REF (spec/95_test_vectors.md S1). -/
def kRef : Quad := ⟨0x833D3433, 0x009669A2, 0xE0FA72B4, 0x68067688⟩

/-- Vector D-7. -/
def k1Ref : Quad := ⟨0x067A6866, 0x012CD345, 0xC1F4E568, 0xD00CED11⟩

/-- Vector D-8. -/
def k2Ref : Quad := ⟨0x0CF4D04B, 0x0259A68A, 0x83E9CAD0, 0xA019DA23⟩

/-- Vector A2: TAG after the 16 bytes 0x00 to 0x0F. -/
def tagA2 : Quad := ⟨0x803F3533, 0x07906CA6, 0xEBF07BBC, 0x67087B84⟩

/-- The bytes 0x00 to 0x0F, or 0x10 to 0x1F. -/
def bytesFrom (b : Byte) : Buffer := Vector.ofFn fun k => b + BitVec.ofNat 8 k.val

/-- After INIT with K_REF. -/
def keyed (r : Rounds) : State :=
  { State.resetFor r with key := kRef, tag := kRef, k1 := k1Ref, k2 := k2Ref, fsm := .empty }

/-- A Context with bytes absorbed. -/
def filled (r : Rounds) (tag : Quad) (buf : Buffer) (count : BitVec 64) : State :=
  { keyed r with tag := tag, buf := buf, count := count, fsm := .absorbing }

/-- p in flight. -/
def inFlight (p : Pending) (s : State) : State := { s with pend := some p, busy := true }

/-- The outside is about to do e to an idle core. -/
def facing (e : Event) (s : State) : State := { s with events := [e] }

/-- The outside is about to do e while a command is in flight. -/
def facingBusy (e : Event) (s : State) : State := { inFlight .nop s with events := [e], sched := [.host] }

/-- A field of the next state, where there is one. -/
def after {α : Type} (f : State → α) (o : Host.Outcome State Fault Refusal) : Option α :=
  match o with
  | .next t => some (f t)
  | .fault _ => none
  | .refused _ => none

/-- Whether a rejection is all that a CMD write of c does to s. -/
def rejectedWith (e : ErrCode) (c : Word) (s : State) : Bool :=
  decide (after id (step (facing (.write 0x00 4 c) s)) = some { s with err := true, errCode := e })

/-! ## WellFormed refuses each ill-formed term -/

theorem test_absorb_five_refused : (Instr.absorb 5).wf = false := by decide

theorem test_absorb_six_refused : (Instr.absorb 6).wf = false := by decide

theorem test_absorb_seven_refused : (Instr.absorb 7).wf = false := by decide

theorem test_absorb_four_accepted : (Instr.absorb 4).wf = true := by decide

/-! ## Decode: words written out from spec/30_encoding.md R71 to R74, RSV K N OP -/

theorem test_decode_nop : decode 0b000000000000000000000000_0_000_0000 = .ok .nop := by decide

theorem test_decode_init : decode 0b000000000000000000000000_0_000_0001 = .ok .init := by decide

theorem test_decode_absorb : decode 0b000000000000000000000000_0_100_0010 = .ok (.absorb 4) := by decide

theorem test_decode_final : decode 0b000000000000000000000000_0_000_0011 = .ok .final := by decide

theorem test_decode_finalK : decode 0b000000000000000000000000_1_000_0011 = .ok .finalK := by decide

theorem test_decode_perm : decode 0b000000000000000000000000_0_000_0100 = .ok .perm := by decide

/-- E-5, E-8, E-10, E-11 to E-14. -/
theorem test_illegal_words :
    decode 0x00000052 = .error .countNotAllowed ∧ decode 0x00000084 = .error .keepNotAllowed ∧
    decode 0x00000005 = .error .reservedOp ∧ decode 0x0000000F = .error .reservedOp ∧
    decode 0x00000101 = .error .reservedBits ∧ decode 0x80000000 = .error .reservedBits ∧
    decode 0x00000011 = .error .countNotAllowed ∧ decode 0xFFFFFFFF = .error .reservedBits := by decide

theorem test_encode_words :
    encode (.absorb 4) = 0x00000042 ∧ encode .finalK = 0x00000083 ∧ encode .perm = 0x00000004 := by decide

/-! ## The datapath -/

/-- W3 and W6. -/
theorem test_rotl32 : rotl32 0x80000001 5 = 0x00000030 ∧ rotl32 0x12345678 13 = 0x8ACF0246 := by decide

/-- P-5 and P-7. -/
theorem test_round :
    arxRound ⟨0xFFFFFFFF, 0xFFFFFFFF, 0xFFFFFFFF, 0xFFFFFFFF⟩ = ⟨0xFFFF0000, 0xFFFFFF7F, 0xFFFFFFFF, 0xFFFF2000⟩ ∧
    arxRound kRef = ⟨0xED4BE527, 0x554B5819, 0x92D1DA1F, 0x21616CC9⟩ := by decide

/-- D-6, D-7 and D-8. -/
theorem test_double :
    double ⟨0x80000000, 0x80000000, 0x80000000, 0x80000000⟩ = ⟨0x00000087, 0x00000001, 0x00000001, 0x00000001⟩ ∧
    double kRef = k1Ref ∧ double k1Ref = k2Ref := by decide

/-! ## The commands -/

/-- 44_control.md R180: BUSY falls, and nothing else of the core changes. -/
theorem test_nop_step : after id (step (inFlight .nop (keyed .eight))) = some (keyed .eight) := by decide

/-- PM3. -/
theorem test_perm_eight :
    after State.tag (exec .perm (keyed .eight)) = some ⟨0x4AA6F4EB, 0x98FF3BE3, 0xC37F9771, 0x80827053⟩ := by decide

/-- PM7. -/
theorem test_perm_twelve :
    after State.tag (exec .perm (keyed .twelve)) = some ⟨0x9F6AE35F, 0xF6BDD580, 0x9E93B057, 0x3535AC77⟩ := by decide

/-- 95 section 2.3, INIT after another message: the sampled key is used, not the KEY of the moment. -/
theorem test_init : after id (exec .init (inFlight (.init kRef) { filled .eight .zero .zero 5 with key := .zero })) =
    some (inFlight (.init kRef) { keyed .eight with key := .zero }) := by decide

/-- A2: bytes 12 to 15 complete the first block, with no permutation before it. -/
theorem test_absorb_first_block :
    after (fun t => (t.tag, t.count, t.fsm)) (exec (.absorb 4)
      (inFlight (.absorb 4 0x0F0E0D0C) (filled .eight kRef (bytesFrom 0) 12))) = some (tagA2, 16, .absorbing) := by decide

/-- A4: bytes 28 to 31 complete the second block, after the owed permutation. -/
theorem test_absorb_second_block :
    after State.tag (exec (.absorb 4) (inFlight (.absorb 4 0x1F1E1D1C) (filled .eight tagA2 (bytesFrom 0x10) 28))) =
      some ⟨0xDBA652FD, 0x2C62EF13, 0xFDFA5962, 0xC4F6AA58⟩ := by decide

set_option maxRecDepth 4000 in
/-- 95 section 3, n = 17, ROUNDS = 8; section 4's negative vector is another tag. -/
theorem test_final_seventeen : after State.tag (exec .final (filled .eight tagA2 (bytesFrom 0x10) 17)) =
    some ⟨0x423918D3, 0xA6124B1C, 0x7B3B259A, 0xBE1C83B8⟩ := by decide

/-- BUF after FINAL on m(17): the line after F12. -/
theorem test_pad_block :
    (padBlock (bytesFrom 0x10) 1).toList = [0x10, 0x01, 0, 0, 0, 0, 0, 0, 0, 0, 0, 0, 0, 0, 0, 0] := by decide

/-- F4: the empty message, ROUNDS = 12. -/
theorem test_final_empty :
    after State.tout (exec .final (keyed .twelve)) = some ⟨0xFFC2D0B9, 0x4C7ED8D0, 0xCB4F3870, 0x67D06E22⟩ := by decide

/-- F6: m(3), the Context kept. -/
theorem test_finalK :
    after (fun t => (t.tout, t.tag, t.count, t.fsm)) (exec .finalK (filled .eight kRef (bytesFrom 0) 3)) =
      some (⟨0x3506D671, 0x025592B7, 0xEC5C9B26, 0xB5ECF27E⟩, kRef, 3, .absorbing) := by decide

/-- 95 section 3, n = 16, ROUNDS = 12, by FINAL.K: the k1 branch (P2, line 7). -/
theorem test_finalK_full_block :
    after State.tout (exec .finalK (filled .twelve tagA2 (bytesFrom 0) 16)) =
      some ⟨0xA9D5750D, 0x59E53C66, 0xB6418ECC, 0x292BDF1C⟩ := by decide

/-! ## Rejections and the window -/

/-- X1 and X5. -/
theorem test_rejected_unkeyed : rejectedWith .estate 0x00000042 (State.resetFor .eight) = true ∧
    rejectedWith .eillegal 0x00000052 (State.resetFor .eight) = true := by decide

/-- X6. -/
theorem test_rejected_busy : after (fun t => (t.err, t.errCode, t.pend))
    (step (facingBusy (.write 0x00 4 0x00000052) (keyed .eight))) = some (true, .ebusy, some .nop) := by decide

/-- X9 and X10. -/
theorem test_count_limit :
    rejectedWith .ecount 0x00000032 (filled .eight kRef .zero 0xFFFFFFFFFFFFFFFE) = true ∧
    after State.count (exec (.absorb 1) (inFlight (.absorb 1 0) (filled .eight kRef .zero 0xFFFFFFFFFFFFFFFE))) =
      some 0xFFFFFFFFFFFFFFFF := by decide

/-- P3, line 2: STATUS after X1. -/
theorem test_status_read :
    after State.got (step (facing (.read 0x04 4) { State.resetFor .eight with err := true, errCode := .estate })) =
      some [0x00000022] := by decide

/-- P1's and P2's end states read STATUS 0x00000300 and 0x00001300. -/
theorem test_status_layout : ({ keyed .eight with fsm := .finalized } : State).status = 0x00000300 ∧
    ({ keyed .twelve with fsm := .finalized, count := 17 } : State).status = 0x00001300 := by decide

/-- The lines of P2's FEED 0x03020100, 4. -/
theorem test_feed_lines : feedLines 0x03020100 4 =
    [.write 0x08 4 0x03020100, .write 0x00 4 0x00000042, .wait] := by decide

/-- The next step after `withFetchWord` runs the word: INIT's from a fresh core. -/
theorem test_placed_init : after (fun t => (t.fsm, t.busy))
    (step ((State.resetFor .eight).withFetchWord 32 0x00000001)) = some (.empty, false) := by decide

/-! ## Witnesses: for each obligation with hypotheses, states and operands that meet them together -/

/-- Whatever the outside does to an idle core, it moves; the rest of the list is what follows. -/
theorem facing_moves (e : Event) (r : Rounds) : (facing e (keyed r)).HostMoves e [] := ⟨rfl, rfl⟩

theorem facingBusy_moves (e : Event) (r : Rounds) : (facingBusy e (keyed r)).HostMoves e [] := ⟨rfl, rfl⟩

theorem inFlight_moves (p : Pending) (s : State) (h : s.events = []) : (inFlight p s).EngineMoves p := by
  refine ⟨?_, rfl⟩
  show State.mover { s with pend := some p, busy := true } = _
  unfold State.mover
  rw [h]

/-- ABSORB 4 in flight for the first bytes of a message meets the invariant. -/
theorem inv_absorb_in_flight : (inFlight (.absorb 4 0x03020100) (keyed .eight)).Inv where
  busy_pend := rfl
  pend_admissible p h := by
    cases h
    decide
  empty_count _ := rfl
  absorbing_count h := by cases h
  err_record := by decide
  subkeys := by decide
  unkeyed h := by cases h

/-- An idle core with a Context and events to come meets the invariant. -/
theorem inv_keyed (es : List Event) : ({ keyed .eight with events := es } : State).Inv where
  busy_pend := rfl
  pend_admissible p h := by cases h
  empty_count _ := rfl
  absorbing_count h := by cases h
  err_record := ⟨fun _ => rfl, fun _ => rfl⟩
  subkeys := by show k2Ref = double k1Ref; decide
  unkeyed h := by cases h

theorem witness_EveryStepKeepsTheInvariant : ∃ s t : State, s.Inv ∧ step s = .next t ∧ t.count = 4 :=
  ⟨inFlight (.absorb 4 0x03020100) (keyed .eight), _, inv_absorb_in_flight, rfl, by decide⟩

theorem witness_FsmMovesByItsTable :
    (facing .reset (keyed .eight)).HostMoves .reset [] ∧ (facing .wait (keyed .eight)).HostMoves .wait [] ∧
    ((inFlight .final (keyed .eight)).EngineMoves .final ∧ (inFlight .final (keyed .eight)).commandError .final = none) ∧
    ((inFlight .final (State.resetFor .eight)).EngineMoves .final ∧
      (inFlight .final (State.resetFor .eight)).commandError .final = some .estate) ∧
    (keyed .eight).mover = none ∧
    ((State.resetFor .eight).busy = false ∧ decode 0x00000003 = .ok .final ∧ NeedsContext .final ∧
      (State.resetFor .eight).OutOfContext) :=
  ⟨⟨rfl, rfl⟩, ⟨rfl, rfl⟩, ⟨⟨rfl, rfl⟩, rfl⟩, ⟨⟨rfl, rfl⟩, rfl⟩, rfl, rfl, by decide, .inr (.inl rfl), .inl rfl⟩

/-- BUF differs in its last byte, the only unspecified one at COUNT = 15. -/
theorem witness_UnspecifiedBufferBytesReachNoOutput :
    (filled .eight kRef .zero 15).SameButSlack (filled .eight kRef (Buffer.zero.set 15 0xFF) 15) ∧
    filled .eight kRef .zero 15 ≠ filled .eight kRef (Buffer.zero.set 15 0xFF) 15 := by
  refine ⟨⟨rfl, ?_⟩, by decide⟩
  decide

/-- One step for each kind of change, none of them a reset. -/
theorem witness_OnlyItsWritersChangeAnElement :
    after State.key (step (facing (.write 0x1C 4 7) (keyed .eight))) ≠ some kRef ∧
    after State.din (step (facing (.write 0x08 4 7) (keyed .eight))) ≠ some 0 ∧
    after State.k1 (step (inFlight (.init .zero) (keyed .eight))) ≠ some k1Ref ∧
    after State.tout (step (inFlight .finalK (keyed .eight))) ≠ some .zero ∧
    after State.tag (step (inFlight .perm (keyed .eight))) ≠ some kRef ∧
    after State.buf (step (inFlight (.absorb 1 7) (keyed .eight))) ≠ some .zero ∧
    after State.count (step (inFlight (.absorb 1 7) (keyed .eight))) ≠ some 0 ∧
    ¬ ∃ rest, (inFlight .perm (keyed .eight)).HostMoves .reset rest := by
  refine ⟨by decide, by decide, by decide, by decide, by decide, by decide, by decide, ?_⟩
  rintro ⟨rest, h, -⟩
  revert h
  decide

theorem witness_HostReadAppendsTheRegister : ∀ r : Reg,
    (facing (.read r.offset 4) (keyed .eight)).HostMoves (.read r.offset 4) [] ∧
    (facingBusy (.read r.offset 4) (keyed .eight)).HostMoves (.read r.offset 4) [] :=
  fun _ => ⟨facing_moves _ _, facingBusy_moves _ _⟩

theorem witness_StatusReadsByItsLayout : (keyed .eight).busy = false ∧ (inFlight .nop (keyed .eight)).busy = true :=
  ⟨rfl, rfl⟩

theorem witness_StatusWriteClearsTheErrorRecord :
    ((facing (.write 0x04 4 0x00000002) (keyed .eight)).HostMoves (.write 0x04 4 0x00000002) [] ∧
      (0x00000002 : Word).getLsbD 1 = true) ∧
    ((facingBusy (.write 0x04 4 0xFFFFFFFD) (keyed .eight)).HostMoves (.write 0x04 4 0xFFFFFFFD) [] ∧
      (0xFFFFFFFD : Word).getLsbD 1 = false) :=
  ⟨⟨facing_moves _ _, by decide⟩, facingBusy_moves _ _, by decide⟩

theorem witness_DinAndKeyAreWrittenAndReadBack : ∀ off ∈ [0x08, 0x10, 0x14, 0x18, 0x1C],
    (facing (.write off 4 0xFFFFFFFF) (keyed .eight)).HostMoves (.write off 4 0xFFFFFFFF) [] ∧
    (facingBusy (.read off 4) (keyed .eight)).HostMoves (.read off 4) [] :=
  fun _ _ => ⟨facing_moves _ _, facingBusy_moves _ _⟩

theorem witness_ReadOnlyRegistersReadAndIgnoreWrites : ∀ off ∈ [0x0C, 0x20, 0x2C, 0x30, 0x3C, 0x40, 0x4C, 0x50, 0x5C, 0x60, 0x64],
    (facing (.read off 4) (keyed .eight)).HostMoves (.read off 4) [] ∧ (facing (.read off 4) (keyed .eight)).busy = false ∧
    (facingBusy (.write off 4 1) (keyed .eight)).HostMoves (.write off 4 1) [] :=
  fun _ _ => ⟨facing_moves _ _, rfl, facingBusy_moves _ _⟩

theorem witness_ReservedAndReadOnlyOffsetsIgnoreWrites : ∀ off ∈ [0x00, 0x0C, 0x20, 0x64, 0x68, 0x7C],
    off % 4 = 0 ∧ (facing (.read off 4) (keyed .eight)).HostMoves (.read off 4) [] ∧
    (facingBusy (.write off 4 1) (keyed .eight)).HostMoves (.write off 4 1) [] := by
  intro off h
  refine ⟨?_, facing_moves _ _, facingBusy_moves _ _⟩
  revert off
  decide

/-- The lowest and the highest offset there is, a wrong width and a wrong alignment. -/
theorem witness_OnlyAlignedWordAccessesHaveAStep :
    (0x00 % 4 = 0 ∧ 0x00 ≤ 0x7C ∧ 0x7C % 4 = 0 ∧ 0x7C ≤ 0x7C ∧ 1 ≠ 4 ∧ 0x02 % 4 ≠ 0) ∧
    ∀ off width : Nat, (facing (.write off width 1) (keyed .eight)).HostMoves (.write off width 1) [] ∧
      (facingBusy (.read off width) (keyed .eight)).HostMoves (.read off width) [] :=
  ⟨by decide, fun _ _ => ⟨facing_moves _ _, facingBusy_moves _ _⟩⟩

theorem witness_AccessPastTheWindowFaults : 0x80 % 4 = 0 ∧ 0x80 ≤ 0x80 ∧
    (facing (.write 0x80 4 1) (keyed .eight)).HostMoves (.write 0x80 4 1) [] ∧
    (facing (.read 0x80 4) (keyed .eight)).HostMoves (.read 0x80 4) [] :=
  ⟨rfl, Nat.le_refl _, facing_moves _ _, facing_moves _ _⟩

theorem witness_ReadsChangeNoElement :
    (∃ t, step (facing (.read 0x7C 4) (keyed .eight)) = .next t) ∧ (facing (.read 0x7C 4) (keyed .eight)).HostMoves (.read 0x7C 4) [] ∧
    (∃ t, step (facingBusy .wait (keyed .eight)) = .next t) ∧ (facingBusy .wait (keyed .eight)).HostMoves .wait [] :=
  ⟨⟨_, rfl⟩, facing_moves _ _, ⟨_, rfl⟩, facingBusy_moves _ _⟩

theorem witness_OperandsAreSampledAtTheCmdWrite :
    (∀ off ∈ [0x08, 0x10, 0x1C], (facingBusy (.write off 4 1) (keyed .eight)).HostMoves (.write off 4 1) [] ∧
      ∃ t, step (facingBusy (.write off 4 1) (keyed .eight)) = .next t) ∧
    ((keyed .eight).accept .init).pend = some (.init kRef) ∧
    ({ keyed .eight with din := 5 }.accept (.absorb 4)).pend = some (.absorb 4 5) := by
  refine ⟨?_, rfl, rfl⟩
  intro off h
  refine ⟨facingBusy_moves _ _, ?_⟩
  simp only [List.mem_cons, List.not_mem_nil, or_false] at h
  rcases h with rfl | rfl | rfl <;> exact ⟨_, rfl⟩

theorem witness_BusyReadsReturnAnyValue : ∀ off ∈ [0x00, 0x04, 0x1C, 0x20, 0x64, 0x68, 0x7C],
    (facingBusy (.read off 4) (keyed .eight)).busy = true ∧ off % 4 = 0 ∧ (Reg.ofOffset off).isSome = true ∧
    (facingBusy (.read off 4) (keyed .eight)).HostMoves (.read off 4) [] := by
  intro off h
  refine ⟨rfl, ?_, ?_, facingBusy_moves _ _⟩ <;>
  · revert off
    decide

theorem witness_DecodeAndEncodeAgree : (Instr.absorb 4).wf = true ∧ decode 0x00000042 = .ok (.absorb 4) := by decide

theorem witness_IllegalWordsAreRejected :
    decode 0x00000052 = .error .countNotAllowed ∧ (facing (.write 0x00 4 0x00000052) (keyed .eight)).busy = false ∧
    (facing (.write 0x00 4 0x00000052) (keyed .eight)).err = false ∧
    (facing (.write 0x00 4 0x00000052) { keyed .eight with err := true, errCode := .ebusy }).err = true ∧
    (facing (.write 0x00 4 0x00000052) (keyed .eight)).HostMoves (.write 0x00 4 0x00000052) [] :=
  ⟨by decide, rfl, rfl, rfl, facing_moves _ _⟩

theorem witness_FeedingAMessageAbsorbsItsBytes : ∃ s : State, s.Inv ∧ s.busy = false ∧ s.InContext ∧
    s.events = feedMessage [1, 2, 3, 4, 5] ++ [.wait] ∧ s.count.toNat + 5 ≤ 2 ^ 64 - 1 :=
  ⟨_, inv_keyed (feedMessage [1, 2, 3, 4, 5] ++ [.wait]), rfl, .inl rfl, rfl, by decide⟩

/-- Rotation by 1 and by 31, bits 0 and 31. -/
theorem witness_RotationMovesEveryBit : rotl32 0x00000001 31 = 0x80000000 ∧ rotl32 0x80000000 1 = 0x00000001 := by decide

theorem witness_InitStartsAContext : (inFlight (.init kRef) (keyed .eight)).pend = some (.init kRef) := rfl

/-- The last byte of a block, the bytes over its end, no byte at all, and the last byte COUNT has room for. -/
theorem witness_AbsorbTakesItsBytesInOrder : ∀ c ∈ [((15 : BitVec 64), (1 : BitVec 3)), (14, 4), (0, 0), (0xFFFFFFFFFFFFFFFB, 4)],
    (inFlight (.absorb c.2 9) (filled .eight kRef .zero c.1)).pend = some (.absorb c.2 9) ∧ c.2 ≤ 4 ∧
    (inFlight (.absorb c.2 9) (filled .eight kRef .zero c.1)).InContext ∧
    (inFlight (.absorb c.2 9) (filled .eight kRef .zero c.1)).count.toNat + c.2.toNat ≤ 2 ^ 64 - 1 := by
  intro c h
  simp only [List.mem_cons, List.not_mem_nil, or_false] at h
  rcases h with rfl | rfl | rfl | rfl <;> exact ⟨rfl, by decide, .inr rfl, by decide⟩

theorem witness_AbsorbRaisesBeforeAnyWrite :
    (4 : BitVec 3) < 5 ∧ ((4 : BitVec 3) ≤ 4 ∧ (State.resetFor .eight).OutOfContext) ∧
    ((filled .eight kRef .zero 0xFFFFFFFFFFFFFFFC).InContext ∧
      2 ^ 64 - 1 < (filled .eight kRef .zero 0xFFFFFFFFFFFFFFFC).count.toNat + (4 : BitVec 3).toNat) :=
  ⟨by decide, ⟨by decide, .inl rfl⟩, .inr rfl, by decide⟩

theorem witness_AccumulatorHoldsTheMessage :
    legalCounts [(4, 0x03020100), (0, 9), (1, 0x00000004)] ∧
    absorbedBytes [(4, 0x03020100), (0, 9), (1, 0x00000004)] = [0, 1, 2, 3, 4] := by
  refine ⟨?_, by decide⟩
  intro c h
  simp only [List.mem_cons, List.not_mem_nil, or_false] at h
  rcases h with rfl | rfl | rfl <;> decide

/-- A5's kind of split: 1 + 4 bytes against 4 + 1. -/
theorem witness_AbsorbIsIncremental :
    absorbedBytes [(1, 0x00000000), (4, 0x04030201)] = absorbedBytes [(4, 0x03020100), (1, 0x00000004)] ∧
    (keyed .eight).InContext ∧ (keyed .eight).busy = false ∧ (keyed .eight).pend = none ∧
    (keyed .eight).count.toNat + (absorbedBytes [(4, 0x03020100), (1, 0x00000004)]).length = 5 :=
  ⟨by decide, .inl rfl, rfl, rfl, by decide⟩

/-- COUNT at the ends of the branches: 0, 15, 16, 17. -/
theorem witness_FinalizeValueByItsSteps :
    ((16 : BitVec 64).toNat ≠ 0 ∧ (16 : BitVec 64).toNat % 16 = 0) ∧ (0 : BitVec 64).toNat = 0 ∧
    (15 : BitVec 64).toNat % 16 ≠ 0 ∧ ((17 : BitVec 64).toNat % 16 ≠ 0 ∧ 16 ≤ (17 : BitVec 64).toNat) := by decide

theorem witness_FinalWritesTheTag : (keyed .eight).InContext ∧ (filled .eight kRef .zero 16).InContext :=
  ⟨.inl rfl, .inr rfl⟩

theorem witness_FinalKWritesToutAlone : (keyed .eight).InContext ∧ (filled .eight kRef .zero 17).InContext :=
  ⟨.inl rfl, .inr rfl⟩

theorem witness_FinalWithoutAContextRaises :
    (State.resetFor .eight).OutOfContext ∧ ({ keyed .eight with fsm := .finalized } : State).OutOfContext :=
  ⟨.inl rfl, .inr rfl⟩

theorem witness_FinalKLeavesTheMessageUndisturbed : (filled .eight kRef .zero 3).InContext := .inr rfl

theorem witness_TagIsTheOneShotForm :
    legalCounts [(4, 0x03020100), (3, 0x00060504)] ∧ (absorbedBytes [(4, 0x03020100), (3, 0x00060504)]).length = 7 := by
  refine ⟨?_, by decide⟩
  intro c h
  simp only [List.mem_cons, List.not_mem_nil, or_false] at h
  rcases h with rfl | rfl <;> decide

/-- A full record is cleared by a STATUS write and by a reset. -/
theorem witness_OnlyTheFirstRejectionIsRecorded :
    after State.err (step (facing (.write 0x04 4 2) { keyed .eight with err := true, errCode := .ebusy })) = some false ∧
    after State.err (step (facing .reset { keyed .eight with err := true, errCode := .ebusy })) = some false := by decide

theorem witness_AcceptedCommandsNeverFail : ∃ s : State, s.Inv ∧ s.pend = some (.absorb 4 0x03020100) :=
  ⟨_, inv_absorb_in_flight, rfl⟩

/-- One state for each check, and two where all of them pass. -/
theorem witness_CmdWriteIsCheckedInOrder :
    (∀ c : Word, (facing (.write 0x00 4 c) (keyed .eight)).HostMoves (.write 0x00 4 c) []) ∧
    (facingBusy (.write 0x00 4 0) (keyed .eight)).busy = true ∧ decode 0x00000052 = .error .countNotAllowed ∧
    decode 0x00000032 = .ok (.absorb 3) ∧ (State.resetFor .eight).OutOfContext ∧
    2 ^ 64 - 1 < (filled .eight kRef .zero 0xFFFFFFFFFFFFFFFD).count.toNat + (3 : BitVec 3).toNat ∧
    (filled .eight kRef .zero 0xFFFFFFFFFFFFFFFC).count.toNat + (3 : BitVec 3).toNat ≤ 2 ^ 64 - 1 ∧
    decode 0x00000001 = .ok .init :=
  ⟨fun _ => facing_moves _ _, rfl, by decide, by decide, .inl rfl, by decide, by decide, by decide⟩

theorem witness_ResetGivesEveryElementItsValue : (facingBusy .reset (keyed .eight)).HostMoves .reset [] :=
  facingBusy_moves _ _

theorem witness_EngineStepRunsThePendingCommand : (inFlight .perm (keyed .eight)).EngineMoves .perm ∧
    (inFlight .perm (keyed .eight)).busy = (inFlight .perm (keyed .eight)).pend.isSome ∧
    (inFlight .perm (keyed .eight)).events = [] :=
  ⟨inFlight_moves _ _ rfl, rfl, rfl⟩

/-- A legal word, an illegal word on an idle core, and one while a command is in flight. -/
theorem witness_PlacedWordIsRunByTheNextStep : decodeTableWord 32 0x00000042 = some (.absorb 4) ∧
    decodeTableWord 32 0xFFFFFFFF = none ∧ (inFlight .nop (keyed .eight)).busy = true := by decide

theorem witness_CommandStaysInFlightUntilTaken : (facingBusy .wait (keyed .eight)).pend = some .nop ∧
    (facingBusy .wait (keyed .eight)).busy = true ∧ (facingBusy .wait (keyed .eight)).HostMoves .wait [] ∧
    Event.wait ≠ .reset ∧ ∃ t, step (facingBusy .wait (keyed .eight)) = .next t :=
  ⟨rfl, rfl, facingBusy_moves _ _, by decide, _, rfl⟩

theorem witness_WaitAlwaysEnds : ∃ s : State, s.Inv ∧ s.events = .wait :: [] := ⟨_, inv_keyed [.wait], rfl⟩

theorem witness_IdleCoreHoldsItsState : (keyed .eight).pend = none ∧ (keyed .eight).events = [] := ⟨rfl, rfl⟩

end Sys2Proof.Tests
end

