-- ==== Sys2Proof/Proofs/Views.lean ====
section
/-! PROOFS of the statement about the views of data (00_scope.md R16). Four bytes and their word determine each other, and
the two views of 16 bytes are that conversion word by word. -/

namespace Sys2Proof

theorem Quad.ext_word {v w : Quad} (h : ∀ j, v.word j = w.word j) : v = w :=
  Quad.ext (h 0) (h 1) (h 2) (h 3)

end Sys2Proof

namespace Sys2Proof.Machine

/-! ## One word and its four bytes -/

/-- The bits of a word put together from bytes (R16): byte k lies at bits 8k+7 : 8k. -/
theorem getLsbD_wordOfBytes (b0 b1 b2 b3 : Byte) {i : Nat} (hi : i < 32) :
    (wordOfBytes b0 b1 b2 b3).getLsbD i =
      if i < 8 then b0.getLsbD i
      else if i < 16 then b1.getLsbD (i - 8)
      else if i < 24 then b2.getLsbD (i - 16)
      else b3.getLsbD (i - 24) := by
  have past (b : Byte) (n : Nat) (h : 8 ≤ n) : b.getLsbD n = false := b.getLsbD_of_ge n h
  simp only [wordOfBytes, BitVec.getLsbD_or, BitVec.getLsbD_shiftLeft, BitVec.getLsbD_setWidth, hi]
  split_ifs with h8 h16 h24
  · simp [h8, show i < 16 by omega, show i < 24 by omega]
  · simp [show i - 8 < 32 by omega, h8, h16, show i < 24 by omega, past b0 i (by omega)]
  · simp [show i - 16 < 32 by omega, h8, h16, h24, past b0 i (by omega), past b1 (i - 8) (by omega)]
  · simp [show i - 24 < 32 by omega, h8, h16, h24, past b0 i (by omega), past b1 (i - 8) (by omega),
      past b2 (i - 16) (by omega)]

theorem byteOf_wordOfBytes (f : Fin 4 → Byte) (k : Fin 4) :
    byteOf (wordOfBytes (f 0) (f 1) (f 2) (f 3)) k.val = f k := by
  apply BitVec.eq_of_getLsbD_eq
  intro i hi
  have inWord : 8 * k.val + i < 32 := by omega
  simp only [byteOf, BitVec.getLsbD_extractLsb', hi, decide_true, Bool.true_and, getLsbD_wordOfBytes _ _ _ _ inWord]
  match k with
  | 0 => simp [hi]
  | 1 => simp [show 8 + i < 16 by omega]
  | 2 => simp [show ¬ 16 + i < 8 by omega, show 16 + i < 24 by omega]
  | 3 => simp [show ¬ 24 + i < 8 by omega, show ¬ 24 + i < 16 by omega]

@[simp] theorem wordOfBytes_byteOf (v : Word) :
    wordOfBytes (byteOf v 0) (byteOf v 1) (byteOf v 2) (byteOf v 3) = v := by
  apply BitVec.eq_of_getLsbD_eq
  intro i hi
  simp only [byteOf, getLsbD_wordOfBytes _ _ _ _ hi, BitVec.getLsbD_extractLsb']
  split_ifs with h8 h16 h24
  · simp [h8]
  · simp [show i - 8 < 8 by omega, show 8 + (i - 8) = i by omega]
  · simp [show i - 16 < 8 by omega, show 16 + (i - 16) = i by omega]
  · simp [show i - 24 < 8 by omega, show 24 + (i - 24) = i by omega]

/-! ## Sixteen bytes and their four words -/

/-- Word j of the word view is put together from bytes 4j to 4j+3. They are given as a function of the place in the word,
which is how the two round trips know them. -/
theorem word_wordView {b : Buffer} {j : Fin 4} {f : Fin 4 → Byte} (h : ∀ i : Fin 4, b[4 * j.val + i.val] = f i) :
    (wordView b).word j = wordOfBytes (f 0) (f 1) (f 2) (f 3) := by
  rw [← h 0, ← h 1, ← h 2, ← h 3]
  match j with
  | 0 | 1 | 2 | 3 => rfl

theorem getElem_byteView (w : Quad) (j i : Fin 4) :
    (byteView w)[4 * j.val + i.val] = byteOf (w.word j) i.val := by
  have hdiv : (4 * j.val + i.val) / 4 = j.val := by omega
  have hmod : (4 * j.val + i.val) % 4 = i.val := by omega
  simp [byteView, hdiv, hmod]

theorem byteView_wordView (b : Buffer) : byteView (wordView b) = b := by
  have byte (j i : Fin 4) : (byteView (wordView b))[4 * j.val + i.val] = b[4 * j.val + i.val] := by
    obtain ⟨f, hf⟩ : ∃ f : Fin 4 → Byte, ∀ i : Fin 4, b[4 * j.val + i.val] = f i := ⟨_, fun _ => rfl⟩
    rw [getElem_byteView, word_wordView hf, byteOf_wordOfBytes, hf]
  ext k hk : 1
  simpa [Nat.div_add_mod] using byte ⟨k / 4, by omega⟩ ⟨k % 4, by omega⟩

theorem wordView_byteView (w : Quad) : wordView (byteView w) = w := by
  refine Quad.ext_word fun j => ?_
  rw [word_wordView (getElem_byteView w j)]
  exact wordOfBytes_byteOf (w.word j)

/-- Settles O1: W and B are the conversion of a word and its bytes, word by word. -/
theorem byteAndWordViewsAreInverse : Obligations.ByteAndWordViewsAreInverse :=
  ⟨fun _ => rfl, getElem_byteView, byteView_wordView, wordView_byteView⟩

end Sys2Proof.Machine
end

