-- ==== Sys2Proof/Proofs/FsmTable.lean ====
section
/-! PROOFS of the statement about FSM (10_state.md R29). Of the outside's events only a reset writes FSM; a command that
passes its checks writes it as the table says; a command that fails one is a rejection, which writes the error record. -/

namespace Sys2Proof.Machine

/-! ## The outside's step and FSM -/

@[simp] theorem State.presentCommand_fsm (c : Word) (s : State) : (s.presentCommand c).fsm = s.fsm := by
  obtain ⟨i, -, -, -, accepted⟩ | ⟨e, rejected⟩ := s.presentCommand_cases c
  · rw [accepted, State.accept_fsm]
  · rw [rejected, State.reject_fsm]

@[simp] theorem State.writeReg_fsm (r : Reg) (v : Word) (s : State) : (s.writeReg r v).fsm = s.fsm := by
  by_cases hr : r = .cmd
  · rw [hr]
    exact s.presentCommand_fsm v
  · rw [State.writeReg_frame r v s hr]

@[simp] theorem State.afterRead_fsm (s : State) : s.afterRead.fsm = s.fsm := by rw [State.afterRead_eq]

@[simp] theorem State.hostWait_fsm (s : State) (rest : List Event) : (s.hostWait rest).fsm = s.fsm := by
  rw [State.hostWait_eq]

theorem State.hostStep_fsm {s t : State} {e : Event} {rest : List Event} (he : s.events = e :: rest)
    (h : s.hostStep = .next t) : t.fsm = if e = .reset then .unkeyed else s.fsm := by
  obtain ⟨off, v, r, rfl, -, -, rfl⟩ | ⟨off, r, rfl, -, -, rfl⟩ | ⟨rfl, rfl⟩ | ⟨rfl, rfl⟩ :=
    State.hostStep_cases he h
  · simp
  · simp
  · simp
  · rfl

theorem step_host_fsm {s t : State} {e : Event} {rest : List Event} (hm : s.HostMoves e rest)
    (h : step s = .next t) : t.fsm = if e = .reset then .unkeyed else s.fsm := by
  have taken : s.takeTurn.events = e :: rest := by rw [State.takeTurn_events, hm.2]
  rw [step_of_host hm] at h
  rw [State.hostStep_fsm taken h, State.takeTurn_fsm]

/-! ## The engine's step and FSM -/

theorem State.hasContext_of_commandError {s : State} {i : Instr} (hi : NeedsContext i)
    (h : s.commandError i = none) : s.fsm.hasContext = true := by
  cases hc : s.fsm.hasContext with
  | true => rfl
  | false => obtain ⟨n, rfl⟩ | rfl | rfl := hi <;> simp [State.commandError, hc] at h

theorem State.commandError_of_outOfContext {s : State} {i : Instr} (hi : NeedsContext i) (h : s.OutOfContext) :
    s.commandError i = some .estate := by
  have hc : s.fsm.hasContext = false := (Fsm.hasContext_false_iff s.fsm).2 h
  obtain ⟨n, rfl⟩ | rfl | rfl := hi <;> simp [State.commandError, hc]

/-- The effect of a command that passes its checks moves FSM as the table of R29 says. Only ABSORB and FINAL need the
check: without a Context their table lines leave FSM alone, and their effects do not. -/
theorem effect_fsm {i : Instr} {s : State} (h : s.commandError i = none) :
    (effect i s).fsm = fsmTable i s.fsm := by
  have context (hi : NeedsContext i) : s.InContext :=
    (Fsm.hasContext_iff s.fsm).1 (State.hasContext_of_commandError hi h)
  cases i with
  | nop => rfl
  | init => rfl
  | finalK => rfl
  | perm => rfl
  | absorb n =>
    rw [effect_absorb_frame]
    obtain hf | hf := context (.inl ⟨n, rfl⟩) <;> simp [hf, fsmTable]
  | final => obtain hf | hf := context (.inr (.inl rfl)) <;> simp [hf, fsmTable, effect]

@[simp] theorem State.takeTurn_commandError (s : State) (i : Instr) :
    s.takeTurn.commandError i = s.commandError i :=
  State.commandError_congr i s.takeTurn_fsm s.takeTurn_count

theorem step_engine_of_admissible {s : State} {p : Pending} (hm : s.EngineMoves p) (hwf : p.instr.wf = true)
    (h : s.commandError p.instr = none) : step s = .next (effect p.instr s.takeTurn).complete := by
  rw [step_of_engine hm, exec_of_admissible hwf (by rw [State.takeTurn_commandError, h])]
  rfl

/-- A command in PEND that fails a check is one rejection, whether or not its term is a command (log 9), and is then
complete (log 8). -/
theorem step_engine_of_error {s : State} {p : Pending} {e : ErrCode} (hm : s.EngineMoves p)
    (h : s.commandError p.instr = some e) : ∃ e', step s = .next (s.takeTurn.reject e').complete := by
  rw [step_of_engine hm]
  obtain ⟨-, admissible, -⟩ | ⟨e', -, -, hx⟩ | ⟨-, hx⟩ := exec_cases p.instr s.takeTurn
  · rw [State.takeTurn_commandError, h] at admissible
    cases admissible
  · exact ⟨e', by rw [hx]; rfl⟩
  · exact ⟨.eillegal, by rw [hx]; rfl⟩

theorem step_engine_fsm_of_admissible {s t : State} {p : Pending} (hm : s.EngineMoves p)
    (hwf : p.instr.wf = true) (hp : s.commandError p.instr = none) (h : step s = .next t) :
    t.fsm = fsmTable p.instr s.fsm := by
  rw [step_engine_of_admissible hm hwf hp] at h
  cases h
  rw [State.complete_fsm, effect_fsm (by rw [State.takeTurn_commandError, hp]), State.takeTurn_fsm]

theorem step_engine_fsm_of_error {s t : State} {p : Pending} {e : ErrCode} (hm : s.EngineMoves p)
    (hp : s.commandError p.instr = some e) (h : step s = .next t) : t.fsm = s.fsm := by
  obtain ⟨e', rejected⟩ := step_engine_of_error hm hp
  rw [rejected] at h
  cases h
  rw [State.complete_fsm, State.reject_fsm, State.takeTurn_fsm]

/-! ## The idle step, and the ESTATE line of the table -/

theorem step_of_idle {s : State} (hm : s.mover = none) : step s = .next s := by
  unfold step
  rw [hm]

theorem State.presentCommand_of_outOfContext {s : State} {c : Word} {i : Instr} (hb : s.busy = false)
    (hd : decode c = .ok i) (hi : NeedsContext i) (h : s.OutOfContext) : s.presentCommand c = s.reject .estate := by
  rw [State.presentCommand_of_legal hb hd, State.commandError_of_outOfContext hi h]

/-- Settles O4: one lemma for each mover and each outcome of the checks. -/
theorem fsmMovesByItsTable : Obligations.FsmMovesByItsTable := by
  refine ⟨fun s t h => ⟨fun rest hm => ?_, fun e rest hm he => ?_, fun p hm hwf hp => ?_, fun p e hm hp => ?_,
    fun hm => ?_⟩, fun s c i hb hd hi hc => ?_⟩
  · rw [step_host_fsm hm h, if_pos rfl]
  · rw [step_host_fsm hm h, if_neg he]
  · exact step_engine_fsm_of_admissible hm hwf hp h
  · exact step_engine_fsm_of_error hm hp h
  · rw [step_of_idle hm] at h
    cases h
    rfl
  · exact State.presentCommand_of_outOfContext hb hd hi hc

end Sys2Proof.Machine
end

