-- ==== Sys2Proof/Proofs/Window.lean ====
section
/-! PROOFS of the statements about single accesses of the register window (20_memory.md R45, R46, R49, R57 to R59). An
aligned offset of the window is the offset of a register; what a host read or write of that register does is then one of
`step_read` and `step_write`. -/

namespace Sys2Proof.Machine

/-! ## The register at an offset (R46) -/

theorem Reg.offset_of_ofOffset {off : Nat} {r : Reg} (h : Reg.ofOffset off = some r) : r.offset = off := by
  unfold Reg.ofOffset at h
  split at h <;> cases h <;> rfl

theorem Reg.exists_ofOffset {off : Nat} (aligned : off % 4 = 0) (inWindow : off ≤ 0x7C) :
    ∃ r, Reg.ofOffset off = some r := by
  have slots : ∀ slot : Fin 32, (Reg.ofOffset (4 * slot.val)).isSome = true := by decide
  have slot : 4 * (off / 4) = off := by omega
  simpa [slot, Option.isSome_iff_exists] using slots ⟨off / 4, by omega⟩

/-! ## Writes and reads of one register -/

@[simp] theorem State.presentCommand_events (c : Word) (s : State) : (s.presentCommand c).events = s.events := by
  obtain ⟨i, -, -, -, accepted⟩ | ⟨e, rejected⟩ := s.presentCommand_cases c
  · rw [accepted, State.accept_events]
  · rw [rejected, State.reject_events]

@[simp] theorem State.writeReg_events (r : Reg) (v : Word) (s : State) : (s.writeReg r v).events = s.events := by
  by_cases hr : r = .cmd
  · rw [hr]
    exact s.presentCommand_events v
  · rw [State.writeReg_frame r v s hr]

/-- The writable registers are CMD, STATUS, DIN and KEY0 to KEY3: none is at 0x0C or from 0x20 on. -/
theorem State.writeReg_of_readOnly {r : Reg} (v : Word) (s : State) (h : r.offset = 0x0C ∨ 0x20 ≤ r.offset) :
    s.writeReg r v = s := by
  cases r with
  | cmd | status | din => simp [Reg.offset] at h
  | key j => simp only [Reg.offset] at h; omega
  | cfg | tag j | k1 j | k2 j | tout j | countLo | countHi | reserved j => rfl

/-- The registers at 0x00 and from 0x68 on are CMD and the reserved ones, which read 0 busy or not. -/
theorem State.readValue_of_reserved {r : Reg} (s : State) (h : r.offset = 0x00 ∨ 0x68 ≤ r.offset) :
    s.readValue r = 0 := by
  cases r with
  | cmd | reserved j => exact ite_self (0 : Word)
  | status | din | cfg | countLo | countHi => simp [Reg.offset] at h
  | key j | tag j | k1 j | k2 j | tout j => simp only [Reg.offset] at h; omega

/-! ## Accesses of another width or alignment (R58) -/

theorem accessedReg_of_undefined {off width : Nat} (h : width ≠ 4 ∨ off % 4 ≠ 0) :
    accessedReg off width = .refused (.undefinedAccess off width) := if_pos h

theorem step_write_of_undefined {s : State} {off width : Nat} {v : Word} {rest : List Event}
    (hm : s.HostMoves (.write off width v) rest) (h : width ≠ 4 ∨ off % 4 ≠ 0) :
    step s = .refused (.undefinedAccess off width) := by
  rw [step_of_host hm]
  simp only [State.hostStep, State.takeTurn_events, hm.2, State.hostWrite, accessedReg_of_undefined h]

theorem step_read_of_undefined {s : State} {off width : Nat} {rest : List Event}
    (hm : s.HostMoves (.read off width) rest) (h : width ≠ 4 ∨ off % 4 ≠ 0) :
    step s = .refused (.undefinedAccess off width) := by
  rw [step_of_host hm]
  simp only [State.hostStep, State.takeTurn_events, hm.2, State.hostRead, accessedReg_of_undefined h]

/-- Settles O13: a register stands at each aligned offset of the window; the other accesses are refused before any
register is looked for. -/
theorem onlyAlignedWordAccessesHaveAStep : Obligations.OnlyAlignedWordAccessesHaveAStep := by
  refine fun s rest off width v => ⟨?_, fun undefined =>
    ⟨fun hm => step_write_of_undefined hm undefined, fun hm => step_read_of_undefined hm undefined⟩⟩
  rintro ⟨rfl, aligned, inWindow⟩
  obtain ⟨r, hr⟩ := Reg.exists_ofOffset aligned inWindow
  exact ⟨fun hm => ⟨_, step_write hm aligned hr, State.writeReg_events r v _⟩,
    fun hm => ⟨_, step_read hm aligned hr, rfl⟩⟩

/-! ## Byte lanes (R59) -/

theorem busLane_busAddress {off k : Nat} (aligned : off % 4 = 0) (inWindow : off ≤ 0x7C) (hk : k < 4) :
    busLane (busAddress off k) = some (off, k) := by
  have distance : busAddress off k - Config.base = off + k := by unfold busAddress; omega
  have bounds : Config.base ≤ busAddress off k ∧ busAddress off k < Config.base + 128 := by unfold busAddress; omega
  have register : (off + k) / 4 * 4 = off := by omega
  have lane : (off + k) % 4 = k := by omega
  rw [busLane, if_pos bounds, distance, register, lane]

theorem busLane_isSome_iff (a : Nat) : (busLane a).isSome ↔ Config.base ≤ a ∧ a < Config.base + 0x80 := by
  unfold busLane
  split <;> simp [*]

theorem getLsbD_byteOf (v : Word) (k : Nat) {i : Nat} (hi : i < 8) :
    (byteOf v k).getLsbD i = v.getLsbD (8 * k + i) := by
  simp [byteOf, hi]

/-- Settles O15: the lane of an address by division by 4, and a byte as an extract of its word. -/
theorem byteLanesAreLittleEndian : Obligations.ByteLanesAreLittleEndian :=
  ⟨fun _ _ => busLane_busAddress, busLane_isSome_iff, fun v k _ _ => getLsbD_byteOf v k⟩

/-! ## STATUS, and the offsets that ignore writes (R49, R57) -/

/-- Settles O9: a STATUS write is `clearError` or nothing, by bit 1 of the value. -/
theorem statusWriteClearsTheErrorRecord : Obligations.StatusWriteClearsTheErrorRecord := by
  intro s rest v hm
  rw [step_write hm rfl (r := .status) rfl]
  exact ⟨fun set => by rw [State.writeReg, if_pos set, State.clearError],
    fun clear => by rw [State.writeReg, if_neg (Bool.eq_false_iff.1 clear)]⟩

/-- Settles O12: the register at the offset is one that reads 0, or one that ignores the write. -/
theorem reservedAndReadOnlyOffsetsIgnoreWrites : Obligations.ReservedAndReadOnlyOffsetsIgnoreWrites := by
  intro s rest off v aligned
  constructor
  · intro reserved hm
    obtain ⟨r, hr⟩ := Reg.exists_ofOffset aligned (by omega)
    have hoff := Reg.offset_of_ofOffset hr
    have zero : s.readValue r = 0 := s.readValue_of_reserved (by omega)
    exact ⟨_, step_read hm aligned hr, by simp [State.SameCore], by rw [zero]⟩
  · intro readOnly hm
    obtain ⟨r, hr⟩ := Reg.exists_ofOffset aligned (by omega)
    have hoff := Reg.offset_of_ofOffset hr
    rw [step_write hm aligned hr, State.writeReg_of_readOnly v _ (by omega)]

end Sys2Proof.Machine
end

