-- ==== Sys2Proof/Proofs/SampledOperands.lean ====
section
/-! PROOFS of the statement about sampled operands (20_memory.md R62). The engine takes INIT's key and ABSORB's data from
PEND, and no rule writes DIN or KEY, so overwriting the two before the engine's step is overwriting them after it. -/

namespace Sys2Proof.Machine

/-! ## DIN and KEY overwritten -/

/-- s with other values in the host's two operand registers, as later writes leave them. -/
def State.withHostOperands (d : Word) (k : Quad) (s : State) : State := { s with din := d, key := k }

section
variable (d : Word) (k : Quad) (s : State)

@[simp] theorem State.withHostOperands_pend : (s.withHostOperands d k).pend = s.pend := rfl

theorem State.reject_withHostOperands (e : ErrCode) :
    (s.withHostOperands d k).reject e = (s.reject e).withHostOperands d k := by
  cases record : s.err <;> simp [State.reject, State.withHostOperands, record]

theorem State.commandError_withHostOperands (i : Instr) :
    (s.withHostOperands d k).commandError i = s.commandError i := State.commandError_congr i rfl rfl

theorem State.absorbBytes_withHostOperands (bs : List Byte) :
    (s.withHostOperands d k).absorbBytes bs = (s.absorbBytes bs).withHostOperands d k := by
  obtain ⟨tag, buf, count⟩ := State.absorbBytes_congr (s.withHostOperands d k) s bs rfl rfl rfl rfl
  rw [State.absorbBytes_frame, tag, buf, count, s.absorbBytes_frame bs]
  rfl

end

/-! ## The engine's step on them -/

theorem effect_withHostOperands {s : State} {p : Pending} (d : Word) (k : Quad) (hp : s.pend = some p) :
    effect p.instr (s.withHostOperands d k) = (effect p.instr s).withHostOperands d k := by
  cases p with
  | init kin => simp only [Pending.instr, effect, State.kin, hp, State.withHostOperands]
  | absorb n data =>
    simp only [Pending.instr, effect, absorbed, State.absorbData, State.withHostOperands_pend, hp,
      State.absorbBytes_withHostOperands]
    rfl
  | nop | final | finalK | perm => rfl

theorem exec_withHostOperands {s : State} {p : Pending} (d : Word) (k : Quad) (hp : s.pend = some p) :
    exec p.instr (s.withHostOperands d k) = mapNext (State.withHostOperands d k) (exec p.instr s) := by
  obtain ⟨hwf, admissible, hx⟩ | ⟨e, hwf, failing, hx⟩ | ⟨hwf, hx⟩ := exec_cases p.instr s
  · rw [hx, exec_of_admissible hwf (by rw [State.commandError_withHostOperands, admissible]),
      effect_withHostOperands d k hp, mapNext]
  · rw [hx, exec_of_error hwf (by rw [State.commandError_withHostOperands, failing]),
      State.reject_withHostOperands, mapNext]
  · rw [hx, exec_of_ill_formed hwf, State.reject_withHostOperands, mapNext]

theorem engineStep_withHostOperands {s : State} {p : Pending} (d : Word) (k : Quad) (hp : s.pend = some p) :
    engineStep (s.withHostOperands d k) = mapNext (State.withHostOperands d k) (engineStep s) := by
  simp only [engineStep, State.withHostOperands_pend, hp, exec_withHostOperands d k hp]
  cases exec p.instr s <;> rfl

/-! ## Acceptance, and writes of DIN and KEY -/

theorem State.sample_operands (s : State) (i : Instr) :
    (∀ k, s.sample i = .init k → k = s.key) ∧ (∀ n d, s.sample i = .absorb n d → d = s.din) := by
  cases i <;> simp_all [State.sample]

theorem Reg.ofOffset_operand {off : Nat} (h : off ∈ [0x08, 0x10, 0x14, 0x18, 0x1C]) :
    ∃ r, Reg.ofOffset off = some r ∧ r ≠ .cmd ∧ off % 4 = 0 := by
  simp only [List.mem_cons, List.not_mem_nil, or_false] at h
  obtain rfl | rfl | rfl | rfl | rfl := h <;> exact ⟨_, rfl, by decide, rfl⟩

/-- Settles O17: acceptance by the command's operand; a write of DIN or KEY is no CMD write, so it leaves PEND and BUSY;
the engine's step commutes with overwriting DIN and KEY. -/
theorem operandsAreSampledAtTheCmdWrite : Obligations.OperandsAreSampledAtTheCmdWrite := by
  refine ⟨fun s i => ?_, fun s t rest v off hoff hm h => ?_, fun s p d k hp => engineStep_withHostOperands d k hp⟩
  · exact ⟨_, State.accept_pend s i, State.sample_instr s i, s.sample_operands i⟩
  · obtain ⟨r, hr, notCmd, aligned⟩ := Reg.ofOffset_operand hoff
    rw [step_write hm aligned hr, State.writeReg_frame r v _ notCmd] at h
    cases h
    exact ⟨s.takeTurn_pend, s.takeTurn_busy⟩

end Sys2Proof.Machine
end

