-- ==== Sys2Proof/Proofs/Encoding.lean ====
section
/-! PROOFS of the statements about legal and illegal command words (30_encoding.md R76, R77). The words that decode are
the encodings of the well-formed commands, and each decodes to its command. -/

namespace Sys2Proof

/-! ## A word and its fields (R71) -/

/-- With RSV = 0 the other three fields determine the word. -/
theorem formatC_fields {c : Word} (reserved : reservedField c = 0) :
    formatC (keepField c) (countField c) (opField c) = c := by
  have above (i : Nat) : (c.extractLsb' 8 24).getLsbD i = false := by
    rw [show c.extractLsb' 8 24 = 0#24 from reserved, BitVec.getLsbD_zero]
  apply BitVec.eq_of_getLsbD_eq
  intro i hi
  simp only [formatC, opField, countField, keepField, BitVec.getLsbD_append, BitVec.getLsbD_extractLsb']
  split_ifs with op count keep
  · simp [op]
  · simp [count, show 4 + (i - 4) = i by omega]
  · simp [keep, show 7 + (i - 4 - 3) = i by omega]
  · simpa [show i - 8 < 24 by omega, show 8 + (i - 8) = i by omega] using (above (i - 8)).symm

theorem encode_fields (i : Instr) : Laws.EncodeFields.Statement i := by
  cases i with
  | nop => exact Laws.EncodeFields.nop
  | init => exact Laws.EncodeFields.init
  | absorb n => exact Laws.EncodeFields.absorb n
  | final => exact Laws.EncodeFields.final
  | finalK => exact Laws.EncodeFields.finalK
  | perm => exact Laws.EncodeFields.perm

/-! ## The words that decode (R76) -/

/-- The fields of a word that decodes are those of its command: one case per line of R76. -/
theorem fields_of_decode {c : Word} {i : Instr} (h : decode c = .ok i) :
    i.wf = true ∧ reservedField c = 0 ∧ opField c = i.op ∧ countField c = i.count ∧ keepField c = i.keep := by
  simp only [decode] at h
  split_ifs at h with reserved nop init absorb final finalK perm <;> cases h
  · exact ⟨rfl, not_not.1 reserved, nop⟩
  · exact ⟨rfl, not_not.1 reserved, init⟩
  · obtain ⟨op, count, keep⟩ := absorb
    exact ⟨decide_eq_true count, not_not.1 reserved, op, rfl, keep⟩
  · exact ⟨rfl, not_not.1 reserved, final⟩
  · exact ⟨rfl, not_not.1 reserved, finalK⟩
  · exact ⟨rfl, not_not.1 reserved, perm⟩

theorem decode_eq_ok_iff {c : Word} {i : Instr} : decode c = .ok i ↔ i.wf = true ∧ encode i = c := by
  constructor
  · intro h
    obtain ⟨wf, reserved, op, count, keep⟩ := fields_of_decode h
    exact ⟨wf, by rw [encode, ← keep, ← count, ← op, formatC_fields reserved]⟩
  · rintro ⟨wf, rfl⟩
    obtain ⟨-, -, -, -, decodes⟩ := encode_fields i
    exact decodes.2 wf

/-- Settles O19: the well-formed commands, ABSORB for each of its five counts, and their encodings. -/
theorem exactlyTenWordsAreLegal : Obligations.ExactlyTenWordsAreLegal := by
  intro c i
  rw [decode_eq_ok_iff]
  constructor
  · rintro ⟨wf, rfl⟩
    cases i with
    | absorb n => revert n; decide
    | nop | init | final | finalK | perm => decide
  · rintro (⟨rfl, rfl⟩ | ⟨rfl, rfl⟩ | ⟨rfl, rfl⟩ | ⟨rfl, rfl⟩ | ⟨rfl, rfl⟩ | ⟨rfl, rfl⟩ | ⟨rfl, rfl⟩ | ⟨rfl, rfl⟩ |
      ⟨rfl, rfl⟩ | ⟨rfl, rfl⟩) <;> decide

/-! ## The words that do not (R77) -/

/-- The five causes of R77, on the fields of a command: no legal command has one. -/
theorem Instr.not_wf_of_cause {i : Instr} (cause : 5 ≤ i.op ∨ (i.op ≠ 2 ∧ i.count ≠ 0) ∨ (i.op = 2 ∧ 4 < i.count) ∨
    (i.op ≠ 3 ∧ i.keep = 1)) : i.wf = false := by
  cases i with
  | absorb n => revert n; decide
  | nop | init | final | finalK | perm => revert cause; decide

/-- A word with none of the five causes is the word of the command its OP names. -/
theorem exists_encode_of_no_cause {c : Word} (reserved : reservedField c = 0) (op : opField c < 5)
    (count : opField c ≠ 2 → countField c = 0) (absorb : opField c = 2 → countField c ≤ 4)
    (keep : opField c ≠ 3 → keepField c = 0) : ∃ i : Instr, i.wf = true ∧ encode i = c := by
  have word := formatC_fields reserved
  have rows : opField c = 0 ∨ opField c = 1 ∨ opField c = 2 ∨ opField c = 3 ∨ opField c = 4 := by bv_omega
  obtain h | h | h | h | h := rows <;> rw [h] at word count absorb keep
  · rw [count (by decide), keep (by decide)] at word
    exact ⟨.nop, rfl, word⟩
  · rw [count (by decide), keep (by decide)] at word
    exact ⟨.init, rfl, word⟩
  · rw [keep (by decide)] at word
    exact ⟨.absorb (countField c), decide_eq_true (absorb rfl), word⟩
  · rw [count (by decide)] at word
    obtain k | k : keepField c = 0 ∨ keepField c = 1 := by bv_omega
    · exact ⟨.final, rfl, by rw [← word, k]; rfl⟩
    · exact ⟨.finalK, rfl, by rw [← word, k]; rfl⟩
  · rw [count (by decide), keep (by decide)] at word
    exact ⟨.perm, rfl, word⟩

theorem decode_eq_error_iff (c : Word) : (∃ e, decode c = .error e) ↔
    reservedField c ≠ 0 ∨ 5 ≤ opField c ∨ (opField c ≠ 2 ∧ countField c ≠ 0) ∨
    (opField c = 2 ∧ 4 < countField c) ∨ (opField c ≠ 3 ∧ keepField c = 1) := by
  constructor
  · rintro ⟨e, illegal⟩
    by_contra noCause
    simp only [not_or, not_and, not_not, BitVec.not_le, BitVec.not_lt] at noCause
    obtain ⟨reserved, op, count, absorb, keep⟩ := noCause
    obtain ⟨i, legal⟩ := exists_encode_of_no_cause reserved op count absorb
      fun h => by have := keep h; bv_omega
    rw [decode_eq_ok_iff.2 legal] at illegal
    cases illegal
  · intro cause
    cases h : decode c with
    | error e => exact ⟨e, rfl⟩
    | ok i =>
      obtain ⟨wf, reserved, op, count, keep⟩ := fields_of_decode h
      rw [op, count, keep] at cause
      have illFormed := Instr.not_wf_of_cause (cause.resolve_left (not_not.2 reserved))
      rw [wf] at illFormed
      cases illFormed

end Sys2Proof

namespace Sys2Proof.Machine

theorem step_write_of_illegal {s : State} {rest : List Event} {c : Word} {e : DecodeError}
    (hm : s.HostMoves (.write 0x00 4 c) rest) (idle : s.busy = false) (illegal : decode c = .error e) :
    step s = .next ((s.afterEvent rest).reject .eillegal) := by
  have stillIdle : (s.afterEvent rest).busy = false := by rw [← idle]; exact s.takeTurn_busy
  rw [step_write hm rfl (r := .cmd) rfl]
  exact congrArg _ (State.presentCommand_of_illegal stillIdle illegal)

/-- Settles O22: the five causes are those no encoding has; the CMD write is one rejection. -/
theorem illegalWordsAreRejected : Obligations.IllegalWordsAreRejected := by
  refine ⟨decode_eq_error_iff, fun s rest c e hm idle illegal => ?_⟩
  have record : (s.afterEvent rest).err = s.err := s.takeTurn_err
  rw [step_write_of_illegal hm idle illegal]
  exact ⟨fun clear => by rw [State.reject_of_clear _ _ (record.trans clear)],
    fun full => by rw [State.reject_of_full _ _ (record.trans full)]⟩

end Sys2Proof.Machine
end

