-- ==== Sys2Proof/Proofs/Permutation.lean ====
section
/-! PROOFS of the statements about the permutation engine (40_arx_permutation.md R100 to R105). A rotation is the library's
`BitVec.rotateLeft`, so the opposite rotation undoes it; every statement of the round can then be undone, last statement
first, and the permutation is the round iterated. -/

namespace Sys2Proof.Machine

/-! ## The word operations (R100, R101) -/

/-- Settles O25: add32 is the addition of 32-bit words. -/
theorem additionIsModulo2To32 : Obligations.AdditionIsModulo2To32 :=
  ⟨BitVec.toNat_add, rfl, rfl, fun a => BitVec.add_zero a⟩

theorem rotl32_eq_rotateLeft (x : Word) {r : Nat} (hr : r < 32) : rotl32 x r = x.rotateLeft r :=
  (BitVec.rotateLeft_eq_rotateLeftAux_of_lt hr).symm

theorem getLsbD_rotl32 (x : Word) {r i : Nat} (hr : r < 32) (hi : i < 32) :
    (rotl32 x r).getLsbD ((i + r) % 32) = x.getLsbD i := by
  rw [rotl32_eq_rotateLeft x hr, BitVec.getLsbD_rotateLeft_of_le hr]
  by_cases wraps : 32 ≤ i + r
  · have moved : (i + r) % 32 = i + r - 32 := by omega
    have source : 32 - r + (i + r - 32) = i := by omega
    rw [moved, decide_eq_true (by omega), cond_true, source]
  · have moved : (i + r) % 32 = i + r := by omega
    rw [moved, decide_eq_false (by omega), cond_false, decide_eq_true (by omega), Bool.true_and, Nat.add_sub_cancel]

/-- Settles O26: a bit that leaves at the top comes back at the bottom, every other bit moves up by r. -/
theorem rotationMovesEveryBit : Obligations.RotationMovesEveryBit :=
  ⟨fun _ _ => rfl, fun x _ _ _ hr hi => getLsbD_rotl32 x (Nat.lt_succ_of_le hr) hi, rfl, rfl, rfl, rfl, rfl⟩

/-- The opposite rotation undoes a rotation. -/
theorem rotl32_rotl32 (x : Word) {r t : Nat} (hr : r < 32) (ht : t < 32) (opposite : r + t = 32) :
    rotl32 (rotl32 x r) t = x := by
  ext i hi
  have home : ((i + r) % 32 + t) % 32 = i := by omega
  have there := getLsbD_rotl32 (rotl32 x r) ht (Nat.mod_lt (i + r) (by decide))
  rw [home, getLsbD_rotl32 x hr hi] at there
  exact there

theorem add32_sub (a b : Word) : add32 a b - b = a := BitVec.add_sub_cancel a b

theorem add32_sub_cancel (a b : Word) : add32 (a - b) b = a := BitVec.sub_add_cancel a b

/-! ## The round and its inverse (R103) -/

/-- Settles O27: the single-assignment form names the values the fourteen statements write. -/
theorem roundIsTheStatedSequence : Obligations.RoundIsTheStatedSequence :=
  ⟨fun _ => rfl, rfl⟩

/-- The round undone (R105 (b)), its last statement first: every addition by a subtraction, every rotation by the opposite
one, every XOR by the same XOR. Each value has the name it has in `arxRound`. -/
def undoRound (Y : Quad) : Quad :=
  let c2 := rotl32 Y.w2 16
  let b := rotl32 (Y.w1 ^^^ c2) 25
  let c := c2 - b
  let d := rotl32 (Y.w3 ^^^ Y.w0) 19
  let a := rotl32 (Y.w0 - d) 16
  let v1 := rotl32 (b ^^^ a) 27
  let v3 := rotl32 (d ^^^ c) 24
  ⟨a - v1, v1, c - v3, v3⟩

theorem undoRound_arxRound : Function.LeftInverse undoRound arxRound := fun X => by
  simp [undoRound, arxRound, rotl32_rotl32, add32_sub]

theorem arxRound_undoRound : Function.RightInverse undoRound arxRound := fun Y => by
  simp [undoRound, arxRound, rotl32_rotl32, add32_sub_cancel]

theorem arxRound_bijective : Function.Bijective arxRound :=
  ⟨undoRound_arxRound.injective, arxRound_undoRound.surjective⟩

theorem arxRound_zero : arxRound ⟨0, 0, 0, 0⟩ = ⟨0, 0, 0, 0⟩ := rfl

/-! ## The permutation (R104, R105) -/

theorem permuteRounds_eq_iterate (n : Nat) (X : Quad) : permuteRounds n X = arxRound^[n] X := by
  induction n generalizing X with
  | zero => rfl
  | succ n ih => exact ih (arxRound X)

theorem permute_eq_iterate (r : Rounds) (X : Quad) : permute r X = arxRound^[roundCount r] X :=
  permuteRounds_eq_iterate (roundCount r) X

/-- Settles O28: the round fixes zero and is a bijection, so its iterates do; twelve rounds are eight, then four. -/
theorem permutationIsABijection : Obligations.PermutationIsABijection := by
  refine ⟨fun r => ?_, fun r => ?_, fun X => ?_⟩
  · rw [permute_eq_iterate]
    exact Function.iterate_fixed arxRound_zero (roundCount r)
  · rw [funext (permute_eq_iterate r)]
    exact arxRound_bijective.iterate (roundCount r)
  · rw [permute_eq_iterate, permute_eq_iterate]
    exact Function.iterate_add_apply arxRound 4 8 X

end Sys2Proof.Machine
end

