-- ==== Sys2Proof/Proofs/Doubling.lean ====
section
/-! PROOFS of the statement about DOUBLE (41_subkey_derivation.md R120). The shift by one is the library's
`BitVec.shiftConcat`, which puts a given bit in at the bottom; it goes word by word, each word taking the top bit of the
word below. -/

namespace Sys2Proof.Machine

/-! ## A shift by one, part by part -/

theorem shiftConcat_false {n : Nat} (x : BitVec n) : x.shiftConcat false = x <<< 1 := by
  ext i hi
  by_cases bottom : i = 0 <;> simp [BitVec.getElem_shiftConcat, bottom]

/-- The bit that leaves the low part enters the high part. -/
theorem shiftConcat_append {n m : Nat} (x : BitVec n) (y : BitVec m) (c : Bool) (hm : 0 < m) :
    (x ++ y).shiftConcat c = x.shiftConcat y.msb ++ y.shiftConcat c := by
  ext i hi
  simp only [BitVec.getElem_shiftConcat, BitVec.getElem_append]
  obtain low | carry | high : i < m ∨ i = m ∨ m < i := by omega
  · simp [low, show i - 1 < m by omega]
  · simp [carry, hm, hm.ne', BitVec.msb_eq_getLsbD_last, ← BitVec.getLsbD_eq_getElem]
  · simp [show ¬ i < m by omega, show ¬ i - 1 < m by omega, show i ≠ 0 by omega, show i - m ≠ 0 by omega,
      Nat.sub_right_comm i 1 m]

/-- The upper three word equations of R120 each put in the top bit of the word below. -/
theorem shiftLeft_or_carry (x below : Word) : (x <<< 1) ||| (below >>> 31) = x.shiftConcat below.msb := by
  ext i hi
  by_cases bottom : i = 0
  · subst bottom
    simp [BitVec.msb_eq_getLsbD_last]
  · have gone : below.getLsbD (31 + i) = false := BitVec.getLsbD_of_ge below _ (by omega)
    simp [BitVec.getElem_shiftConcat, bottom, gone]

/-! ## DOUBLE (R120) -/

/-- The constant lies in the lowest word, so the XOR leaves the three words above as the shift made them. -/
theorem double_append (X : Quad) : (double X).w3 ++ (double X).w2 ++ (double X).w1 ++ (double X).w0 =
    ((X.w3 ++ X.w2 ++ X.w1 ++ X.w0) <<< 1) ^^^ (if X.w3.getLsbD 31 then 0x87#128 else 0#128) := by
  have constant : (if X.w3.getLsbD 31 then 0x87#128 else 0#128) =
      0#96 ++ (if X.w3.getLsbD 31 then 0x00000087 else 0x00000000 : Word) := by
    split <;> rfl
  rw [constant, ← shiftConcat_false, shiftConcat_append _ X.w0 _ (by decide),
    shiftConcat_append _ X.w1 _ (by decide), shiftConcat_append _ X.w2 _ (by decide), shiftConcat_false,
    BitVec.xor_append, BitVec.xor_zero]
  simp only [double, shiftLeft_or_carry]

/-- Settles O30: the 128-bit shift by `double_append`; the word equations are the definition's own. -/
theorem doubleShiftsAndReduces : Obligations.DoubleShiftsAndReduces :=
  ⟨double_append, fun _ => ⟨_, rfl, rfl, rfl, rfl, rfl⟩, rfl, rfl, rfl, rfl⟩

end Sys2Proof.Machine
end

