-- ==== Sys2Proof/Proofs/Absorbing.lean ====
section
/-! PROOFS of the statements about a message absorbed by several commands (42_absorb.md R144, R146). A run of ABSORBs is one
absorption of all their bytes, however they are split; and every byte absorbed keeps what R144 says of TAG, BUF and
COUNT. -/

namespace Sys2Proof.Machine

/-! ## Runs of commands -/

theorem runCommand_of_admissible {p : Pending} {s : State} (hwf : p.instr.wf = true)
    (h : s.commandError p.instr = none) :
    runCommand p s = .next (effect p.instr { s with pend := some p, busy := true }).complete := by
  have checks : State.commandError p.instr { s with pend := some p, busy := true } = none :=
    (State.commandError_congr p.instr rfl rfl).trans h
  simp only [runCommand, engineStep, exec_of_admissible hwf checks, mapNext]

theorem runCommands_cons_of_next {p : Pending} {s t : State} (ps : List Pending) (h : runCommand p s = .next t) :
    runCommands (p :: ps) s = runCommands ps t := by
  simp only [runCommands, h]

theorem runCommands_append_of_next {ps : List Pending} {s t : State} (qs : List Pending)
    (h : runCommands ps s = .next t) : runCommands (ps ++ qs) s = runCommands qs t := by
  induction ps generalizing s with
  | nil =>
    cases h
    rfl
  | cons p ps ih =>
    rw [List.cons_append]
    simp only [runCommands] at h ⊢
    cases first : runCommand p s with
    | next u =>
      rw [first] at h
      exact ih h
    | fault e => simp [first] at h
    | refused e => simp [first] at h

/-! ## The bytes of one message, and FSM after them -/

/-- s with other values in the elements that tell what the core is doing: FSM, PEND and BUSY. -/
def State.withControl (f : Fsm) (p : Option Pending) (b : Bool) (s : State) : State :=
  { s with fsm := f, pend := p, busy := b }

/-- The bytes of m absorbed one by one, with FSM as ABSORB leaves it: ABSORBING, unless there are none (R143). -/
def State.absorbMessage (s : State) (m : List Byte) : State :=
  { s.absorbBytes m with fsm := if m = [] then s.fsm else .absorbing }

section
variable (s : State) (m : List Byte)

@[simp] theorem State.withControl_withControl (f f' : Fsm) (p p' : Option Pending) (b b' : Bool) :
    (s.withControl f p b).withControl f' p' b' = s.withControl f' p' b' := rfl

/-- Absorbing bytes neither reads nor writes FSM, PEND and BUSY. -/
theorem State.absorbBytes_withControl (f : Fsm) (p : Option Pending) (b : Bool) :
    (s.withControl f p b).absorbBytes m = (s.absorbBytes m).withControl f p b := by
  obtain ⟨tag, buf, count⟩ := State.absorbBytes_congr (s.withControl f p b) s m rfl rfl rfl rfl
  rw [State.absorbBytes_frame, tag, buf, count, s.absorbBytes_frame m]
  rfl

theorem State.absorbMessage_eq : s.absorbMessage m =
    (s.absorbBytes m).withControl (if m = [] then s.fsm else .absorbing) s.pend s.busy := by
  rw [State.absorbMessage, s.absorbBytes_frame m]
  rfl

@[simp] theorem State.absorbMessage_nil : s.absorbMessage [] = s := rfl

@[simp] theorem State.absorbMessage_fsm :
    (s.absorbMessage m).fsm = if m = [] then s.fsm else .absorbing := rfl

@[simp] theorem State.absorbMessage_pend : (s.absorbMessage m).pend = s.pend := s.absorbBytes_pend m

@[simp] theorem State.absorbMessage_busy : (s.absorbMessage m).busy = s.busy := s.absorbBytes_busy m

theorem State.absorbMessage_append (m' : List Byte) :
    s.absorbMessage (m ++ m') = (s.absorbMessage m).absorbMessage m' := by
  rw [State.absorbMessage_eq _ m', State.absorbMessage_fsm, State.absorbMessage_pend, State.absorbMessage_busy,
    s.absorbMessage_eq m, State.absorbBytes_withControl, State.withControl_withControl, ← State.absorbBytes_append,
    State.absorbMessage_eq]
  by_cases last : m' = [] <;> simp [last]

theorem State.absorbMessage_inContext (h : s.InContext) : (s.absorbMessage m).InContext := by
  by_cases empty : m = []
  · rwa [empty]
  · exact .inr (if_neg empty)

theorem State.absorbMessage_count_toNat (room : s.count.toNat + m.length ≤ 2 ^ 64 - 1) :
    (s.absorbMessage m).count.toNat = s.count.toNat + m.length := by
  rw [State.absorbMessage, State.absorbBytes_count, BitVec.toNat_add, BitVec.toNat_ofNat]
  omega

end

/-! ## ABSORBs as one message (R146) -/

theorem dinBytes_eq_nil_iff (d : Word) (n : BitVec 3) : dinBytes d n.toNat = [] ↔ ¬ 1 ≤ n := by
  rw [← List.length_eq_zero_iff, dinBytes_length, BitVec.le_def]
  simp

theorem runCommand_absorb {s : State} {n : BitVec 3} (d : Word) (hn : n ≤ 4) (context : s.InContext)
    (idle : s.busy = false) (empty : s.pend = none) (room : s.count.toNat + n.toNat ≤ 2 ^ 64 - 1) :
    runCommand (.absorb n d) s = .next (s.absorbMessage (dinBytes d n.toNat)) := by
  have checks : s.commandError (.absorb n) = none :=
    State.commandError_of_context _ context fun _ h => by cases h; exact room
  calc runCommand (.absorb n d) s
    _ = .next (((s.withControl s.fsm (some (.absorb n d)) true).absorbBytes (dinBytes d n.toNat)).withControl
          (if 1 ≤ n then .absorbing else s.fsm) none false) :=
      runCommand_of_admissible (p := .absorb n d) (decide_eq_true hn) checks
    _ = .next (s.absorbMessage (dinBytes d n.toNat)) := by
      simp only [State.absorbBytes_withControl, State.withControl_withControl, State.absorbMessage_eq,
        dinBytes_eq_nil_iff, ite_not, idle, empty]

theorem absorbedBytes_cons (c : BitVec 3 × Word) (cs : List (BitVec 3 × Word)) :
    absorbedBytes (c :: cs) = dinBytes c.2 c.1.toNat ++ absorbedBytes cs := rfl

/-- A run of ABSORBs is the absorption of the bytes they carry: how they are split does not enter. -/
theorem runCommands_absorbs {s : State} {cs : List (BitVec 3 × Word)} (legal : legalCounts cs)
    (context : s.InContext) (idle : s.busy = false) (empty : s.pend = none)
    (room : s.count.toNat + (absorbedBytes cs).length ≤ 2 ^ 64 - 1) :
    runCommands (absorbs cs) s = .next (s.absorbMessage (absorbedBytes cs)) := by
  induction cs generalizing s with
  | nil => rfl
  | cons c cs ih =>
    rw [absorbedBytes_cons, List.length_append, dinBytes_length] at room
    have first : runCommand (.absorb c.1 c.2) s = .next (s.absorbMessage (dinBytes c.2 c.1.toNat)) :=
      runCommand_absorb c.2 (legal c List.mem_cons_self) context idle empty (by omega)
    have count := s.absorbMessage_count_toNat (dinBytes c.2 c.1.toNat) (by rw [dinBytes_length]; omega)
    rw [dinBytes_length] at count
    rw [absorbedBytes_cons, State.absorbMessage_append]
    refine (runCommands_cons_of_next (absorbs cs) first).trans (ih (fun c' h => legal c' (List.mem_cons_of_mem c h))
      (s.absorbMessage_inContext _ context) ?_ ?_ (by omega))
    · rw [State.absorbMessage_busy, idle]
    · rw [State.absorbMessage_pend, empty]

/-- Settles O35: both runs are the absorption of the one message, and FINAL starts from the state it leaves. -/
theorem absorbIsIncremental : Obligations.AbsorbIsIncremental := by
  intro s cs cs' legal legal' same context idle empty room
  have run := runCommands_absorbs legal context idle empty room
  have run' := runCommands_absorbs legal' context idle empty (same ▸ room)
  rw [← same] at run'
  refine ⟨_, run, run', rfl, ?_⟩
  rw [runCommands_append_of_next _ run, runCommands_append_of_next _ run']

/-! ## Blocks of a growing message (R144) -/

theorem messageBlock_append (m m' : List Byte) {j : Nat} (whole : 16 * (j + 1) ≤ m.length) :
    messageBlock (m ++ m') j = messageBlock m j := by
  unfold messageBlock
  congr 2
  funext k
  rw [List.getD_append _ _ _ _ (by omega)]

theorem accumulated_append (r : Rounds) (key : Quad) (m m' : List Byte) {q : Nat} (whole : 16 * q ≤ m.length) :
    accumulated r key (m ++ m') q = accumulated r key m q := by
  induction q using accumulated.induct with
  | case1 => rfl
  | case2 => simp only [accumulated, messageBlock_append m m' whole]
  | case3 j ih => simp only [accumulated, messageBlock_append m m' whole, ih (by omega)]

/-- T_1 = Key XOR M_1; every later block comes after a permutation (R144). -/
theorem accumulated_succ (r : Rounds) (key : Quad) (m : List Byte) (j : Nat) :
    accumulated r key m (j + 1) =
      (if j ≠ 0 then permute r (accumulated r key m j) else accumulated r key m j).xor (messageBlock m j) := by
  cases j <;> rfl

/-! ## Byte by byte (R140 to R142, R144) -/

/-- TAG, BUF and COUNT hold the message m under the key, as R144 says. -/
structure State.Accumulates (key : Quad) (m : List Byte) (s : State) : Prop where
  count : s.count.toNat = m.length
  tag : s.tag = accumulated s.rounds key m (m.length / 16)
  buf : ∀ (k : Nat) (h : k < 16), k < m.length % 16 → some s.buf[k] = m[16 * (m.length / 16) + k]?

section
variable {key : Quad} {m : List Byte} {s : State} (h : s.Accumulates key m) (b : Byte)
include h

/-- BUF after a byte, before it is known whether the byte completes the block. -/
theorem State.Accumulates.absorbByte_buf {k : Nat} (hk : k < 16) (valid : k ≤ m.length % 16) :
    some (s.absorbByte b).buf[k] = (m ++ [b])[16 * (m.length / 16) + k]? := by
  simp only [State.absorbByte_buf, h.count, Vector.getElem_set]
  split
  next last => simp [← last, Nat.div_add_mod]
  next earlier =>
    rw [h.buf k hk (by omega), List.getElem?_append_left (by omega)]

/-- A byte that completes the block leaves the whole block in BUF. -/
theorem State.Accumulates.wordView_of_full (full : m.length % 16 = 15) :
    wordView (s.absorbByte b).buf = messageBlock (m ++ [b]) (m.length / 16) := by
  unfold messageBlock
  congr 1
  ext k hk : 1
  have byte := h.absorbByte_buf b hk (by omega)
  rw [Vector.getElem_ofFn, List.getD_eq_getElem?_getD, ← byte, Option.getD_some]

/-- MIX_BLOCK's test of COUNT for the very first block (R141, R142), as the number of blocks before. -/
theorem State.Accumulates.laterBlock_iff (full : m.length % 16 = 15) (room : m.length + 1 ≤ 2 ^ 64 - 1) :
    s.count + 1 - 16 ≠ 0 ↔ m.length / 16 ≠ 0 := by
  rw [← BitVec.toNat_ne_iff_ne, BitVec.toNat_sub, BitVec.toNat_add, h.count]
  simp only [BitVec.reduceToNat]
  omega

theorem State.Accumulates.absorbByte_tag (room : m.length + 1 ≤ 2 ^ 64 - 1) :
    (s.absorbByte b).tag = accumulated s.rounds key (m ++ [b]) ((m.length + 1) / 16) := by
  have before := accumulated_append s.rounds key m [b] (q := m.length / 16) (by omega)
  rw [State.absorbByte_tag, h.tag, ← s.absorbByte_buf b, h.count]
  split
  next full =>
    rw [show (m.length + 1) / 16 = m.length / 16 + 1 by omega, accumulated_succ, before,
      h.wordView_of_full b full]
    simp only [h.laterBlock_iff full room]
  next inside =>
    rw [show (m.length + 1) / 16 = m.length / 16 by omega, before]

theorem State.Accumulates.absorbByte (room : m.length + 1 ≤ 2 ^ 64 - 1) :
    (s.absorbByte b).Accumulates key (m ++ [b]) where
  count := by
    rw [State.absorbByte_count, BitVec.toNat_add, h.count, List.length_append]
    simp only [List.length_singleton, BitVec.reduceToNat]
    omega
  tag := by
    rw [h.absorbByte_tag b room, s.absorbByte_frame, List.length_append, List.length_singleton]
  buf k hk valid := by
    rw [List.length_append, List.length_singleton] at valid ⊢
    rw [show (m.length + 1) / 16 = m.length / 16 by omega]
    exact h.absorbByte_buf b hk (by omega)

end

theorem State.Accumulates.absorbBytes {key : Quad} {m : List Byte} {s : State} (h : s.Accumulates key m)
    (bs : List Byte) (room : m.length + bs.length ≤ 2 ^ 64 - 1) : (s.absorbBytes bs).Accumulates key (m ++ bs) := by
  induction bs generalizing s m with
  | nil => rwa [List.append_nil]
  | cons b bs ih =>
    rw [List.length_cons] at room
    rw [State.absorbBytes_cons, List.append_cons]
    exact ih (h.absorbByte b (by omega)) (by rw [List.length_append, List.length_singleton]; omega)

/-! ## The Context INIT starts (R122) -/

/-- s after INIT with the key, complete (R122, R233). -/
def State.afterInit (key : Quad) (s : State) : State :=
  { s with
    k1 := double key, k2 := double (double key), tag := key, count := 0, fsm := .empty, pend := none, busy := false }

theorem runCommand_init (key : Quad) (s : State) : runCommand (.init key) s = .next (s.afterInit key) := rfl

/-- With no byte absorbed TAG is Key (R144). -/
theorem State.afterInit_accumulates (key : Quad) (s : State) : (s.afterInit key).Accumulates key [] :=
  ⟨rfl, rfl, fun _ _ valid => absurd valid (Nat.not_lt_zero _)⟩

/-- INIT and a run of ABSORBs: the state their message leaves. -/
theorem runCommands_init_absorbs (s : State) (key : Quad) {cs : List (BitVec 3 × Word)} (legal : legalCounts cs)
    (room : (absorbedBytes cs).length ≤ 2 ^ 64 - 1) :
    runCommands (.init key :: absorbs cs) s = .next ((s.afterInit key).absorbMessage (absorbedBytes cs)) :=
  (runCommands_cons_of_next _ (runCommand_init key s)).trans
    (runCommands_absorbs legal (.inl rfl) rfl rfl (by simpa [State.afterInit] using room))

/-- Settles O34: INIT accumulates the empty message, and every byte of the ABSORBs one more. -/
theorem accumulatorHoldsTheMessage : Obligations.AccumulatorHoldsTheMessage := by
  intro s key cs legal room
  obtain ⟨count, tag, buf⟩ := (s.afterInit_accumulates key).absorbBytes (absorbedBytes cs) (by simpa using room)
  rw [State.absorbBytes_rounds] at tag
  exact ⟨_, runCommands_init_absorbs s key legal room, count, rfl, tag, buf⟩

end Sys2Proof.Machine
end

