-- ==== Sys2Proof/Proofs/Finalizing.lean ====
section
/-! PROOFS of the statements about finalization (43_finalize.md R160 to R164, R168, R170). FINALIZE_VALUE has two
branches, and its padded block is the last block of the message with 0x01 put after it. Each turn of the one-shot form's
loop ends with a permutation that the accumulator's chain still owes, so it is enough that TAG, BUF and COUNT hold
the message. -/

namespace Sys2Proof.Machine

/-! ## The padded block (R162) -/

theorem getElem_padBlock (b : Buffer) (i : Nat) {k : Nat} (hk : k < 16) :
    (padBlock b i)[k] = if k < i then b[k] else if k = i then 0x01 else 0x00 := by
  simp [padBlock]

/-- The bytes from i on are overwritten (R25, R162). -/
theorem padBlock_congr {b b' : Buffer} {i : Nat} (valid : ∀ (k : Nat) (h : k < 16), k < i → b[k] = b'[k]) :
    padBlock b i = padBlock b' i := by
  ext k hk : 1
  rw [getElem_padBlock b i hk, getElem_padBlock b' i hk]
  split
  next h => exact valid k hk h
  next => rfl

theorem wordView_padBlock_zero (b : Buffer) : wordView (padBlock b 0) = ⟨0x00000001, 0, 0, 0⟩ := by
  have block : padBlock b 0 = padBlock .zero 0 := padBlock_congr fun k _ h => absurd h k.not_lt_zero
  rw [block]
  decide

/-! ## The branches of FINALIZE_VALUE (R160, R161) -/

section
variable {r : Rounds} {tag k1 k2 : Quad} {buf : Buffer} {count : BitVec 64}

theorem finalizeValue_of_full (full : count.toNat ≠ 0 ∧ count.toNat % 16 = 0) :
    finalizeValue r tag buf count k1 k2 = ((permute r (tag.xor k1)).xor k1, buf) :=
  if_pos full

/-- The permutation owed to an earlier full block is made exactly when there is one (R163). -/
theorem finalizeValue_of_padded (padded : ¬ (count.toNat ≠ 0 ∧ count.toNat % 16 = 0)) :
    finalizeValue r tag buf count k1 k2 =
      ((permute r (((if 16 ≤ count.toNat then permute r tag else tag).xor
        (wordView (padBlock buf (count.toNat % 16)))).xor k2)).xor k2, padBlock buf (count.toNat % 16)) := by
  have owed : count.toNat - count.toNat % 16 ≠ 0 ↔ 16 ≤ count.toNat := by omega
  simp only [finalizeValue, if_neg padded, owed]

end

/-- Settles O36: the two branches, and in the padded one what `padBlock` says of P. -/
theorem finalizeValueByItsSteps : Obligations.FinalizeValueByItsSteps := by
  intro r tag buf count k1 k2
  refine ⟨finalizeValue_of_full, fun branch => ⟨padBlock buf (count.toNat % 16), ?_, ?_, ?_, ?_⟩⟩
  · exact fun k hk => getElem_padBlock buf _ hk
  · intro empty
    rw [empty]
    exact wordView_padBlock_zero buf
  · exact finalizeValue_of_padded (by omega)
  · intro buf' valid
    rw [finalizeValue_of_padded (by omega), finalizeValue_of_padded (by omega), padBlock_congr valid]

/-! ## The one-shot form and the accumulator's chain (R144, R170) -/

/-- R170's loop permutes after each block, R144's chain before each block but the first: mixing in the next block makes
them meet. -/
theorem chained_xor_messageBlock (r : Rounds) (key : Quad) (m : List Byte) (j : Nat) :
    (chained r key m j).xor (messageBlock m j) = accumulated r key m (j + 1) := by
  induction j with
  | zero => rfl
  | succ j ih => simp only [chained, accumulated, ih]

section
variable (r : Rounds) (key : Quad) {m : List Byte}

theorem oneShotTag_of_full (full : m.length ≠ 0 ∧ m.length % 16 = 0) :
    oneShotTag r key m = (permute r ((accumulated r key m (m.length / 16)).xor (double key))).xor (double key) := by
  have blocks : m.length / 16 - 1 + 1 = m.length / 16 := by omega
  simp only [oneShotTag, decide_eq_true full, if_true, chained_xor_messageBlock, blocks]

theorem oneShotTag_of_padded (padded : ¬ (m.length ≠ 0 ∧ m.length % 16 = 0)) :
    oneShotTag r key m = (permute r ((accumulated r key (m ++ [0x01]) (m.length / 16 + 1)).xor
      (double (double key)))).xor (double (double key)) := by
  simp only [oneShotTag, decide_eq_false padded, Bool.false_eq_true, if_false, Nat.add_sub_cancel,
    chained_xor_messageBlock]

end

theorem oneShotTag_nil (r : Rounds) (key : Quad) : oneShotTag r key [] =
    (permute r ((key.xor ⟨0x00000001, 0, 0, 0⟩).xor (double (double key)))).xor (double (double key)) := by
  have block : messageBlock [0x01] 0 = ⟨0x00000001, 0, 0, 0⟩ := by decide
  rw [oneShotTag_of_padded r key (by simp), ← block]
  rfl

/-! ## FINALIZE_VALUE of an accumulated message -/

section
variable {key : Quad} {m : List Byte} {s : State} (h : s.Accumulates key m)
include h

/-- The padded block is the last block of the message with 0x01 after it (R162). -/
theorem State.Accumulates.wordView_padBlock :
    wordView (padBlock s.buf (s.count.toNat % 16)) = messageBlock (m ++ [0x01]) (m.length / 16) := by
  rw [h.count, messageBlock]
  congr 1
  ext k hk : 1
  simp only [getElem_padBlock, Vector.getElem_ofFn, List.getD_eq_getElem?_getD]
  obtain valid | marker | zeros : k < m.length % 16 ∨ k = m.length % 16 ∨ m.length % 16 < k := by omega
  · rw [if_pos valid, List.getElem?_append_left (by omega), ← h.buf k hk valid, Option.getD_some]
  · simp [marker, Nat.div_add_mod]
  · have past : (m ++ [0x01])[16 * (m.length / 16) + k]? = none :=
      List.getElem?_eq_none (by rw [List.length_append, List.length_singleton]; omega)
    rw [if_neg (by omega), if_neg (by omega), past, Option.getD_none]

/-- FINALIZE_VALUE's tag is the one-shot form's, with the subkeys the key gives. -/
theorem State.Accumulates.finalizeValue_eq_oneShotTag (k1 : s.k1 = double key) (k2 : s.k2 = double (double key)) :
    s.finalizeValue.1 = oneShotTag s.rounds key m := by
  rw [State.finalizeValue, k1, k2]
  by_cases full : m.length ≠ 0 ∧ m.length % 16 = 0
  · rw [finalizeValue_of_full (h.count.symm ▸ full), oneShotTag_of_full _ _ full, h.tag]
  · have before := accumulated_append s.rounds key m [0x01] (q := m.length / 16) (by omega)
    have owed : 16 ≤ m.length ↔ m.length / 16 ≠ 0 := by omega
    rw [finalizeValue_of_padded (h.count.symm ▸ full), oneShotTag_of_padded _ _ full, accumulated_succ, before,
      h.wordView_padBlock, h.tag, h.count]
    simp only [owed]

end

/-! ## Whole messages (R168, R170) -/

/-- FINAL in a Context, complete (R166, R233). -/
theorem runCommand_final {s : State} (context : s.InContext) :
    runCommand .final s = .next { s with
      tag := s.finalizeValue.1, buf := s.finalizeValue.2, tout := s.finalizeValue.1, fsm := .finalized,
      pend := none, busy := false } :=
  runCommand_of_admissible (p := .final) rfl (State.commandError_of_context .final context nofun)

/-- FINAL.K in a Context, complete (R167, R233). -/
theorem runCommand_finalK {s : State} (context : s.InContext) :
    runCommand .finalK s = .next { s with tout := s.finalizeValue.1, pend := none, busy := false } :=
  runCommand_of_admissible (p := .finalK) rfl (State.commandError_of_context .finalK context nofun)

/-- FINALIZE_VALUE after INIT and a message. -/
theorem State.finalizeValue_afterInit_absorbMessage (s : State) (key : Quad) {m : List Byte}
    (room : m.length ≤ 2 ^ 64 - 1) :
    ((s.afterInit key).absorbMessage m).finalizeValue.1 = oneShotTag s.rounds key m := by
  have message := (s.afterInit_accumulates key).absorbBytes m (by simpa using room)
  rw [List.nil_append] at message
  have value := message.finalizeValue_eq_oneShotTag (State.absorbBytes_k1 _ m) (State.absorbBytes_k2 _ m)
  rwa [State.absorbBytes_rounds] at value

/-- Settles O43: INIT and the ABSORBs leave a Context that accumulates their bytes, and FINAL and FINAL.K take
the tag from FINALIZE_VALUE of it. -/
theorem tagIsTheOneShotForm : Obligations.TagIsTheOneShotForm := by
  intro s key cs legal room
  have message := runCommands_init_absorbs s key legal room
  have context : ((s.afterInit key).absorbMessage (absorbedBytes cs)).InContext :=
    State.absorbMessage_inContext _ _ (.inl rfl)
  have tag := s.finalizeValue_afterInit_absorbMessage key room
  constructor
  · rw [runCommands_append_of_next _ message]
    exact ⟨_, runCommands_cons_of_next [] (runCommand_final context), tag, rfl, rfl⟩
  · rw [runCommands_append_of_next _ message]
    exact ⟨_, runCommands_cons_of_next [] (runCommand_finalK context), tag⟩

/-- Settles O41: the one-shot form of the message without bytes. -/
theorem emptyMessageTag : Obligations.EmptyMessageTag := by
  intro s key
  obtain ⟨⟨t, run, tout, tag, -⟩, -⟩ := tagIsTheOneShotForm s key [] nofun (Nat.zero_le _)
  exact ⟨t, run, tag, tout.trans (oneShotTag_nil s.rounds key)⟩

end Sys2Proof.Machine
end

