-- ==== Sys2Proof/Proofs/Rejections.lean ====
section
/-! PROOFS of the statements about rejections (60_exceptions.md R203 to R205). Which check of a CMD write fails decides what
it leaves; what it accepts has its effect without a rejection; and of all that a step can do, only a STATUS write or
a reset touches a full error record. -/

namespace Sys2Proof.Machine

/-! ## The checks of a CMD write (R205) -/

theorem State.commandError_of_countPast {s : State} {n : BitVec 3} (context : s.InContext)
    (past : 2 ^ 64 - 1 < s.count.toNat + n.toNat) : s.commandError (.absorb n) = some .ecount := by
  have hasContext : s.fsm.hasContext = true := (Fsm.hasContext_iff s.fsm).2 context
  have wouldPass : s.countWouldPass n = true := decide_eq_true past
  simp [State.commandError, hasContext, wouldPass]

/-- Only the commands that need a Context are checked at all. -/
theorem State.commandError_of_checks {s : State} {i : Instr} (context : NeedsContext i → s.InContext)
    (room : ∀ n, i = .absorb n → s.count.toNat + n.toNat ≤ 2 ^ 64 - 1) : s.commandError i = none := by
  cases i with
  | nop | init | perm => rfl
  | absorb n => exact State.commandError_of_context _ (context (.inl ⟨n, rfl⟩)) room
  | final => exact State.commandError_of_context _ (context (.inr (.inl rfl))) room
  | finalK => exact State.commandError_of_context _ (context (.inr (.inr rfl))) room

theorem State.afterEvent_busy (s : State) (rest : List Event) : (s.afterEvent rest).busy = s.busy := s.takeTurn_busy

section
variable {s : State} {rest : List Event} {c : Word}

theorem step_cmdWrite (hm : s.HostMoves (.write 0x00 4 c) rest) :
    step s = .next ((s.afterEvent rest).presentCommand c) :=
  step_write hm rfl (r := .cmd) rfl

theorem step_cmdWrite_of_busy (hm : s.HostMoves (.write 0x00 4 c) rest) (busy : s.busy = true) :
    step s = .next ((s.afterEvent rest).reject .ebusy) := by
  rw [step_cmdWrite hm, State.presentCommand_of_busy ((s.afterEvent_busy rest).trans busy)]

/-- A legal word on an idle core: the command's own checks decide, and they see s as it stands. -/
theorem step_cmdWrite_of_legal {i : Instr} (hm : s.HostMoves (.write 0x00 4 c) rest) (idle : s.busy = false)
    (legal : decode c = .ok i) :
    (∀ e, s.commandError i = some e → step s = .next ((s.afterEvent rest).reject e)) ∧
    (s.commandError i = none → step s = .next ((s.afterEvent rest).accept i)) := by
  have checks : (s.afterEvent rest).commandError i = s.commandError i :=
    State.commandError_congr i s.takeTurn_fsm s.takeTurn_count
  rw [step_cmdWrite hm, State.presentCommand_of_legal ((s.afterEvent_busy rest).trans idle) legal, checks]
  exact ⟨fun e failing => by rw [failing], fun admissible => by rw [admissible]⟩

end

/-- Settles O48: one lemma for each check that fails, and acceptance where none does. -/
theorem cmdWriteIsCheckedInOrder : Obligations.CmdWriteIsCheckedInOrder := by
  refine fun s rest c hm => ⟨step_cmdWrite_of_busy hm, fun idle e => step_write_of_illegal hm idle,
    fun idle i legal => ?_⟩
  obtain ⟨rejected, accepted⟩ := step_cmdWrite_of_legal hm idle legal
  refine ⟨fun needs out => rejected _ (State.commandError_of_outOfContext needs out), ?_, fun context room => ?_⟩
  · rintro n rfl context past
    exact rejected _ (State.commandError_of_countPast context past)
  · obtain ⟨key, din⟩ := (s.afterEvent rest).sample_operands i
    exact ⟨_, accepted (State.commandError_of_checks context room), State.sample_instr _ i,
      fun k h => (key k h).trans s.takeTurn_key, fun n d h => (din n d h).trans s.takeTurn_din⟩

/-! ## An accepted command (R204) -/

theorem State.reject_frame (s : State) (e : ErrCode) :
    s.reject e = { s with err := (s.reject e).err, errCode := (s.reject e).errCode } := by
  cases record : s.err with
  | false => rw [s.reject_of_clear e record]
  | true => rw [s.reject_of_full e record]

@[simp] theorem effect_err (i : Instr) (s : State) : (effect i s).err = s.err := by rw [effect_frame]

@[simp] theorem effect_errCode (i : Instr) (s : State) : (effect i s).errCode = s.errCode := by rw [effect_frame]

/-- The command in PEND passed its checks at the CMD write, and passes them still (R204). -/
theorem engineStep_of_inv {s : State} {p : Pending} (inv : s.Inv) (hp : s.pend = some p) :
    engineStep s = .next (effect p.instr s).complete := by
  obtain ⟨wf, admissible⟩ := inv.pend_admissible p hp
  simp only [engineStep, hp, exec_of_admissible wf admissible, mapNext]

/-- Settles O47: a CMD write is an acceptance or one rejection; the engine's step on an admissible command is its effect,
which writes no error record. -/
theorem acceptedCommandsNeverFail : Obligations.AcceptedCommandsNeverFail := by
  refine ⟨fun s c => ?_, fun s p inv hp =>
    ⟨_, engineStep_of_inv inv hp, rfl, rfl, effect_err p.instr s, effect_errCode p.instr s⟩⟩
  obtain ⟨i, -, legal, -, accepted⟩ | ⟨e, rejected⟩ := s.presentCommand_cases c
  · exact .inl ⟨i, legal, accepted⟩
  · rw [rejected]
    exact .inr (s.reject_frame e)

/-! ## A full error record (R203) -/

/-- t has the error record of s. -/
def State.SameRecord (s t : State) : Prop := t.err = s.err ∧ t.errCode = s.errCode

section
variable {s t : State}

theorem State.SameRecord.of_takeTurn (h : s.takeTurn.SameRecord t) : s.SameRecord t := by
  obtain ⟨err, errCode⟩ := h
  exact ⟨err.trans s.takeTurn_err, errCode.trans s.takeTurn_errCode⟩

theorem State.reject_sameRecord (e : ErrCode) (full : s.err = true) : s.SameRecord (s.reject e) := by
  rw [s.reject_of_full e full]
  exact ⟨rfl, rfl⟩

theorem exec_sameRecord {i : Instr} (full : s.err = true) (h : exec i s = .next t) : s.SameRecord t := by
  obtain ⟨-, -, hx⟩ | ⟨e, -, -, hx⟩ | ⟨-, hx⟩ := exec_cases i s <;> rw [hx] at h <;> cases h
  · exact ⟨effect_err i s, effect_errCode i s⟩
  · exact State.reject_sameRecord e full
  · exact State.reject_sameRecord .eillegal full

theorem State.presentCommand_sameRecord (c : Word) (full : s.err = true) : s.SameRecord (s.presentCommand c) := by
  obtain ⟨i, -, -, -, accepted⟩ | ⟨e, rejected⟩ := s.presentCommand_cases c
  · rw [accepted]
    exact ⟨s.accept_err i, s.accept_errCode i⟩
  · rw [rejected]
    exact State.reject_sameRecord e full

/-- Of the host's writes only a STATUS write with bit 1 set touches a full record (R49). -/
theorem State.writeReg_sameRecord {r : Reg} {v : Word} (full : s.err = true)
    (noClear : ¬ (r = .status ∧ v.getLsbD 1 = true)) : s.SameRecord (s.writeReg r v) := by
  cases r with
  | cmd => exact State.presentCommand_sameRecord v full
  | status =>
    rw [State.writeReg, if_neg fun set => noClear ⟨rfl, set⟩]
    exact ⟨rfl, rfl⟩
  | din | cfg | key | tag | k1 | k2 | tout | countLo | countHi | reserved => exact ⟨rfl, rfl⟩

/-- Of the outside's events only that write and a reset do. -/
theorem State.hostStep_sameRecord {e : Event} {rest : List Event} (he : s.events = e :: rest) (full : s.err = true)
    (h : s.hostStep = .next t) :
    s.SameRecord t ∨ e = .reset ∨ ∃ v : Word, v.getLsbD 1 = true ∧ e = .write 0x04 4 v := by
  obtain ⟨off, v, r, rfl, -, hr, rfl⟩ | ⟨off, r, -, -, -, rfl⟩ | ⟨-, rfl⟩ | ⟨reset, -⟩ := State.hostStep_cases he h
  · by_cases clears : r = .status ∧ v.getLsbD 1 = true
    · obtain ⟨rfl, set⟩ := clears
      rw [← Reg.offset_of_ofOffset hr]
      exact .inr (.inr ⟨v, set, rfl⟩)
    · exact .inl (State.writeReg_sameRecord (s := { s with events := rest }) full clears)
  · rw [State.afterRead_eq]
    exact .inl ⟨rfl, rfl⟩
  · rw [State.hostWait_eq]
    exact .inl ⟨rfl, rfl⟩
  · exact .inr (.inl reset)

theorem step_sameRecord (full : s.err = true) (h : step s = .next t) :
    s.SameRecord t ∨ (∃ rest, s.HostMoves .reset rest) ∨
      ∃ (v : Word) (rest : List Event), v.getLsbD 1 = true ∧ s.HostMoves (.write 0x04 4 v) rest := by
  have turnFull : s.takeTurn.err = true := s.takeTurn_err.trans full
  obtain ⟨-, rfl⟩ | ⟨p, -, u, hx, rfl⟩ | ⟨e, rest, hm, hs⟩ := step_cases h
  · exact .inl ⟨rfl, rfl⟩
  · exact .inl (exec_sameRecord turnFull hx).of_takeTurn
  · have taken : s.takeTurn.events = e :: rest := s.takeTurn_events.trans hm.2
    obtain kept | rfl | ⟨v, set, rfl⟩ := State.hostStep_sameRecord taken turnFull hs
    · exact .inl kept.of_takeTurn
    · exact .inr (.inl ⟨rest, hm⟩)
    · exact .inr (.inr ⟨v, rest, set, hm⟩)

end

/-- Settles O46: REJECT by its two cases; a step keeps a full record but for the two events that clear it. -/
theorem onlyTheFirstRejectionIsRecorded : Obligations.OnlyTheFirstRejectionIsRecorded := by
  refine ⟨fun s e => ⟨s.reject_of_clear e, s.reject_of_full e⟩, fun s t h full changed => ?_⟩
  obtain ⟨err, errCode⟩ | clearing := step_sameRecord full h
  · rw [err, full] at changed
    exact absurd errCode (changed.resolve_left (by decide))
  · exact clearing

end Sys2Proof.Machine
end

