-- ==== Sys2Proof/Proofs/Reset.lean ====
section
/-! PROOFS of the statement about reset (70_reset_and_hazards.md R230). The state right after reset is what the reset input
would leave it, so the elements of both are those of `resetCore`; and the step of a reset event is that reset alone. -/

namespace Sys2Proof.Machine

theorem State.resetCore_resetFor (r : Rounds) : (State.resetFor r).resetCore = State.resetFor r := rfl

theorem State.resetFor_atReset (r : Rounds) : (State.resetFor r).AtReset := by
  rw [← State.resetCore_resetFor r]
  exact (State.resetFor r).resetCore_atReset

/-- A reset in any state, whatever is in flight (R231). -/
theorem step_reset {s : State} {rest : List Event} (h : s.HostMoves .reset rest) :
    step s = .next (s.afterEvent rest).resetCore := by
  have taken : s.takeTurn.events = .reset :: rest := s.takeTurn_events.trans h.2
  rw [step_of_host h, State.hostStep, taken]

/-- Settles O49: the state right after reset, and the state a reset event leads to, by the elements of `resetCore`. -/
theorem resetGivesEveryElementItsValue : Obligations.ResetGivesEveryElementItsValue := by
  refine ⟨State.resetFor_atReset Config.rounds, fun s rest h => ?_⟩
  exact ⟨_, step_reset h, (s.afterEvent rest).resetCore_atReset, s.takeTurn_rounds, rfl⟩

end Sys2Proof.Machine
end

