-- ==== Sys2Proof/Proofs/Invariant.lean ====
section
/-! PROOFS of the statements about the invariant (10_state.md R28, R33, R36; 60_exceptions.md R204). Reset meets it. A
command that passes its checks keeps it, one lemma for each command that writes the Context; a CMD write keeps it whether
it is accepted or rejected; and the outside's other moves do not touch what it speaks of, but for a reset. -/

namespace Sys2Proof.Machine

/-! ## What the invariant depends on -/

/-- It speaks of the elements of R20 alone. -/
theorem State.Inv.of_sameCore {s t : State} (inv : s.Inv) (same : s.SameCore t) : t.Inv := by
  obtain ⟨tag, -, k1, k2, buf, count, fsm, -, tout, busy, err, errCode, pend⟩ := same
  refine ⟨?_, fun p hp => ?_, ?_, ?_, ?_, ?_, ?_⟩
  · rw [← busy, ← pend]; exact inv.busy_pend
  · rw [← State.commandError_congr p.instr fsm count]
    exact inv.pend_admissible p (pend.trans hp)
  · rw [← fsm, ← count]; exact inv.empty_count
  · rw [← fsm, ← count]; exact inv.absorbing_count
  · rw [← err, ← errCode]; exact inv.err_record
  · rw [← k1, ← k2]; exact inv.subkeys
  · rw [← fsm, ← tag, ← k1, ← k2, ← tout, ← buf, ← count]; exact inv.unkeyed

theorem State.sameCore_takeTurn (s : State) : s.SameCore s.takeTurn := by simp [State.SameCore]

theorem State.Inv.takeTurn {s : State} (inv : s.Inv) : s.takeTurn.Inv := inv.of_sameCore s.sameCore_takeTurn

/-- Of those elements DIN and KEY do not enter. -/
theorem State.Inv.withHostOperands {s : State} (inv : s.Inv) (d : Word) (k : Quad) : (s.withHostOperands d k).Inv :=
  ⟨inv.busy_pend, fun p hp => by
    rw [State.commandError_withHostOperands]; exact inv.pend_admissible p hp,
    inv.empty_count, inv.absorbing_count, inv.err_record, inv.subkeys, inv.unkeyed⟩

/-- An error record that is clear exactly when its code is NO_ERROR may take the place of the old one. -/
theorem State.Inv.withRecord {s : State} (inv : s.Inv) {err : Bool} {code : ErrCode}
    (record : err = false ↔ code = .noError) : ({ s with err := err, errCode := code } : State).Inv :=
  ⟨inv.busy_pend, inv.pend_admissible, inv.empty_count, inv.absorbing_count, record, inv.subkeys, inv.unkeyed⟩

/-! ## Reset (R230) -/

theorem State.AtReset.inv {s : State} (h : s.AtReset) : s.Inv := by
  obtain ⟨tag, -, k1, k2, tout, buf, count, -, fsm, busy, err, errCode, pend⟩ := h
  refine ⟨by rw [busy, pend]; rfl, by simp [pend], fun _ => count, by simp [fsm], by simp [err, errCode], ?_,
    fun _ => ⟨tag, k1, k2, tout, buf, count⟩⟩
  rw [k1, k2]
  decide

/-- Settles O2: every element has its reset value, and those values meet the invariant. -/
theorem resetMeetsTheInvariant : Obligations.ResetMeetsTheInvariant :=
  ⟨(State.resetFor_atReset Config.rounds).inv, fun r => (State.resetFor_atReset r).inv⟩

/-! ## The engine's step -/

theorem permute_zero (r : Rounds) : permute r .zero = .zero := permutationIsABijection.1 r

theorem State.commandError_absorb_eq_none {s : State} {n : BitVec 3} (h : s.commandError (.absorb n) = none) :
    s.InContext ∧ s.count.toNat + n.toNat ≤ 2 ^ 64 - 1 := by
  have context : s.InContext :=
    (Fsm.hasContext_iff s.fsm).1 (State.hasContext_of_commandError (.inl ⟨n, rfl⟩) h)
  refine ⟨context, ?_⟩
  by_contra past
  rw [State.commandError_of_countPast context (by omega)] at h
  cases h

/-- A check that fails names a code (R201). -/
theorem State.commandError_ne_noError {s : State} {i : Instr} {e : ErrCode} (h : s.commandError i = some e) :
    e ≠ .noError := by
  rintro rfl
  cases i with
  | nop | init | perm => cases h
  | absorb n =>
    simp only [State.commandError] at h
    split_ifs at h <;> cases h
  | final | finalK =>
    simp only [State.commandError] at h
    split_ifs at h
    cases h

section
variable {s : State} (inv : s.Inv)
include inv

/-- Completion empties PEND and clears BUSY together. -/
theorem State.Inv.complete : s.complete.Inv :=
  ⟨rfl, nofun, inv.empty_count, inv.absorbing_count, inv.err_record, inv.subkeys, inv.unkeyed⟩

theorem State.Inv.effect_init : (effect .init s).complete.Inv :=
  ⟨rfl, nofun, fun _ => rfl, nofun, inv.err_record, rfl, nofun⟩

theorem State.Inv.effect_absorb {n : BitVec 3} (h : s.commandError (.absorb n) = none) :
    (effect (.absorb n) s).complete.Inv := by
  obtain ⟨context, room⟩ := State.commandError_absorb_eq_none h
  have keyed : s.fsm ≠ .unkeyed := by obtain hf | hf := context <;> simp [hf]
  rw [effect_absorb_frame]
  by_cases bytes : 1 ≤ n
  · have count : s.count + BitVec.ofNat 64 n.toNat ≠ 0 := by bv_omega
    simp only [if_pos bytes]
    exact ⟨rfl, nofun, nofun, fun _ => count, inv.err_record, inv.subkeys, nofun⟩
  · have count : s.count + BitVec.ofNat 64 n.toNat = s.count := by bv_omega
    simp only [if_neg bytes, count]
    exact ⟨rfl, nofun, inv.empty_count, inv.absorbing_count, inv.err_record, inv.subkeys,
      fun unkeyed => absurd unkeyed keyed⟩

theorem State.Inv.effect_final : (effect .final s).complete.Inv :=
  ⟨rfl, nofun, nofun, nofun, inv.err_record, inv.subkeys, nofun⟩

theorem State.Inv.effect_finalK (h : s.commandError .finalK = none) : (effect .finalK s).complete.Inv := by
  refine ⟨rfl, nofun, inv.empty_count, inv.absorbing_count, inv.err_record, inv.subkeys, fun unkeyed => ?_⟩
  have out : s.OutOfContext := .inl unkeyed
  rw [State.commandError_of_outOfContext (.inr (.inr rfl)) out] at h
  cases h

/-- PERM of 0 leaves 0 (R105), so an UNKEYED core stays as reset left it. -/
theorem State.Inv.effect_perm : (effect .perm s).complete.Inv := by
  refine ⟨rfl, nofun, inv.empty_count, inv.absorbing_count, inv.err_record, inv.subkeys, fun unkeyed => ?_⟩
  obtain ⟨tag, rest⟩ := inv.unkeyed unkeyed
  exact ⟨(congrArg (permute s.rounds) tag).trans (permute_zero s.rounds), rest⟩

theorem State.Inv.effect {i : Instr} (h : s.commandError i = none) : (effect i s).complete.Inv := by
  cases i with
  | nop => exact inv.complete
  | init => exact inv.effect_init
  | absorb n => exact inv.effect_absorb h
  | final => exact inv.effect_final
  | finalK => exact inv.effect_finalK h
  | perm => exact inv.effect_perm

/-! ## A CMD write (R205) -/

theorem State.Inv.reject {e : ErrCode} (code : e ≠ .noError) : (s.reject e).Inv := by
  cases record : s.err with
  | true => rwa [s.reject_of_full e record]
  | false =>
    rw [s.reject_of_clear e record]
    exact inv.withRecord (by simp [code])

/-- What is accepted is a legal command that passed its checks. -/
theorem State.Inv.accept {i : Instr} (wf : i.wf = true) (h : s.commandError i = none) : (s.accept i).Inv := by
  refine ⟨rfl, fun p hp => ?_, inv.empty_count, inv.absorbing_count, inv.err_record, inv.subkeys, inv.unkeyed⟩
  rw [State.accept_pend, Option.some.injEq] at hp
  rw [← hp, State.sample_instr]
  exact ⟨wf, (State.commandError_congr i (s.accept_fsm i) (s.accept_count i)).trans h⟩

theorem State.Inv.presentCommand (c : Word) : (s.presentCommand c).Inv := by
  cases busy : s.busy with
  | true =>
    rw [State.presentCommand_of_busy busy]
    exact inv.reject nofun
  | false =>
    cases word : decode c with
    | error cause =>
      rw [State.presentCommand_of_illegal busy word]
      exact inv.reject nofun
    | ok i =>
      rw [State.presentCommand_of_legal busy word]
      cases check : s.commandError i with
      | some e => exact inv.reject (State.commandError_ne_noError check)
      | none => exact inv.accept (decode_eq_ok_iff.1 word).1 check

/-! ## The outside's step, and every step -/

theorem State.Inv.writeReg (r : Reg) (v : Word) : (s.writeReg r v).Inv := by
  cases r with
  | cmd => exact inv.presentCommand v
  | status =>
    rw [State.writeReg]
    split
    · exact inv.withRecord (by simp)
    · exact inv
  | din => exact inv.withHostOperands v s.key
  | key j => exact inv.withHostOperands s.din (s.key.setWord j v)
  | cfg | tag | k1 | k2 | tout | countLo | countHi | reserved => exact inv

theorem State.Inv.withEvents (es : List Event) : ({ s with events := es } : State).Inv :=
  inv.of_sameCore (by simp [State.SameCore])

theorem State.Inv.hostStep {t : State} {e : Event} {rest : List Event} (he : s.events = e :: rest)
    (h : s.hostStep = .next t) : t.Inv := by
  obtain ⟨off, v, r, -, -, -, rfl⟩ | ⟨off, r, -, -, -, rfl⟩ | ⟨-, rfl⟩ | ⟨-, rfl⟩ := State.hostStep_cases he h
  · exact (inv.withEvents rest).writeReg r v
  · rw [State.afterRead_eq]
    exact inv.of_sameCore (by simp [State.SameCore])
  · rw [State.hostWait_eq]
    exact inv.of_sameCore (by simp [State.SameCore])
  · exact (State.resetCore_atReset _).inv

theorem State.Inv.step {t : State} (h : step s = .next t) : t.Inv := by
  obtain ⟨-, rfl⟩ | ⟨p, moves, -⟩ | ⟨e, rest, moves, hs⟩ := step_cases h
  · exact inv
  · obtain ⟨-, admissible⟩ := inv.pend_admissible p moves.2
    rw [step_engine_of_inv inv moves] at h
    cases h
    exact inv.takeTurn.effect ((s.takeTurn_commandError p.instr).trans admissible)
  · exact inv.takeTurn.hostStep (s.takeTurn_events.trans moves.2) hs

end

/-- Settles O3: by who moves; the engine runs a command that passes its checks, and the outside's events one by one. -/
theorem everyStepKeepsTheInvariant : Obligations.EveryStepKeepsTheInvariant :=
  fun _ _ inv h => inv.step h

end Sys2Proof.Machine
end

