-- ==== Sys2Proof/Proofs/UnspecifiedBytes.lean ====
section
/-! PROOFS of the statement about BUF's unspecified bytes (10_state.md R25). Most operations neither read nor write BUF and
COUNT; INIT puts every byte of BUF past the valid ones; ABSORB writes a byte before it counts it, and mixes in BUF only
when all of it is valid; and FINALIZE_VALUE overwrites the rest by its padding. -/

namespace Sys2Proof.Machine

/-- s with another block buffer. -/
def State.withBuf (b : Buffer) (s : State) : State := { s with buf := b }

/-- b agrees with the valid bytes of BUF, those before COUNT mod 16 (R25). -/
def State.ValidIn (b : Buffer) (s : State) : Prop :=
  ∀ (k : Nat) (h : k < 16), k < s.count.toNat % 16 → s.buf[k] = b[k]

theorem State.sameButSlack_withBuf {s : State} {b : Buffer} (valid : s.ValidIn b) :
    s.SameButSlack (s.withBuf b) := ⟨rfl, valid⟩

/-- The two states of the relation are a state and the same one with another buffer. -/
theorem State.SameButSlack.exists_withBuf {s t : State} (h : s.SameButSlack t) :
    ∃ b, s.ValidIn b ∧ t = s.withBuf b :=
  ⟨t.buf, h.2, h.1.symm⟩

section
variable (s : State) (b : Buffer)

/-! ## Operations that do not look at BUF -/

theorem State.readValue_withBuf (r : Reg) : (s.withBuf b).readValue r = s.readValue r := by
  cases r with
  | cmd | status | din | cfg | key | tag | k1 | k2 | tout | countLo | countHi | reserved => rfl

theorem State.takeTurn_withBuf : (s.withBuf b).takeTurn = s.takeTurn.withBuf b := by
  unfold State.takeTurn
  simp only [State.withBuf]
  split <;> rfl

theorem State.reject_withBuf (e : ErrCode) : (s.withBuf b).reject e = (s.reject e).withBuf b := by
  cases record : s.err <;> simp [State.reject, State.withBuf, record]

theorem State.afterRead_withBuf : (s.withBuf b).afterRead = s.afterRead.withBuf b := by
  cases busy : s.busy <;> simp [State.afterRead, State.withBuf, busy]

theorem State.hostWait_withBuf (rest : List Event) :
    (s.withBuf b).hostWait rest = (s.hostWait rest).withBuf b := by
  rw [State.hostWait_eq, State.hostWait_eq, State.afterRead_withBuf]
  rfl

theorem State.presentCommand_withBuf (c : Word) :
    (s.withBuf b).presentCommand c = (s.presentCommand c).withBuf b := by
  cases busy : s.busy with
  | true =>
    rw [State.presentCommand_of_busy (s := s.withBuf b) busy, State.presentCommand_of_busy busy, s.reject_withBuf]
  | false =>
    cases word : decode c with
    | error cause =>
      rw [State.presentCommand_of_illegal (s := s.withBuf b) busy word, State.presentCommand_of_illegal busy word,
        s.reject_withBuf]
    | ok i =>
      have checks : (s.withBuf b).commandError i = s.commandError i := State.commandError_congr i rfl rfl
      rw [State.presentCommand_of_legal (s := s.withBuf b) busy word, State.presentCommand_of_legal busy word, checks]
      cases s.commandError i with
      | some e => exact s.reject_withBuf b e
      | none => cases i <;> rfl

theorem State.writeReg_withBuf (r : Reg) (v : Word) : (s.withBuf b).writeReg r v = (s.writeReg r v).withBuf b := by
  cases r with
  | cmd => exact s.presentCommand_withBuf b v
  | status =>
    simp only [State.writeReg]
    split <;> rfl
  | din | cfg | key | tag | k1 | k2 | tout | countLo | countHi | reserved => rfl

theorem State.writeReg_buffer (r : Reg) (v : Word) :
    (s.writeReg r v).buf = s.buf ∧ (s.writeReg r v).count = s.count := by
  by_cases hr : r = .cmd
  · rw [hr, State.writeReg]
    obtain ⟨i, -, -, -, accepted⟩ | ⟨e, rejected⟩ := s.presentCommand_cases v
    · rw [accepted, State.accept_buf, State.accept_count]
      exact ⟨rfl, rfl⟩
    · rw [rejected, State.reject_buf, State.reject_count]
      exact ⟨rfl, rfl⟩
  · rw [State.writeReg_frame r v s hr]
    exact ⟨rfl, rfl⟩

end

/-- An operation that neither reads nor writes BUF, and leaves COUNT, keeps the relation. -/
theorem State.SameButSlack.map {s t : State} (h : s.SameButSlack t) {f : State → State}
    (commutes : ∀ b, f (s.withBuf b) = (f s).withBuf b) (buffer : (f s).buf = s.buf ∧ (f s).count = s.count) :
    (f s).SameButSlack (f t) := by
  obtain ⟨b, valid, rfl⟩ := h.exists_withBuf
  rw [commutes]
  refine State.sameButSlack_withBuf ?_
  rwa [State.ValidIn, buffer.1, buffer.2]

theorem State.SameButSlack.takeTurn {s t : State} (h : s.SameButSlack t) : s.takeTurn.SameButSlack t.takeTurn :=
  h.map s.takeTurn_withBuf ⟨s.takeTurn_buf, s.takeTurn_count⟩

theorem State.SameButSlack.reject {s t : State} (h : s.SameButSlack t) (e : ErrCode) :
    (s.reject e).SameButSlack (t.reject e) :=
  h.map (f := State.reject e) (s.reject_withBuf · e) ⟨s.reject_buf e, s.reject_count e⟩

/-! ## The outside's step -/

theorem State.SameButSlack.withEvents {s t : State} (h : s.SameButSlack t) (es : List Event) :
    State.SameButSlack { s with events := es } { t with events := es } :=
  h.map (f := fun u => { u with events := es }) (fun _ => rfl) ⟨rfl, rfl⟩

theorem State.SameButSlack.hostWrite {s t : State} (h : s.SameButSlack t) (off width : Nat) (v : Word) :
    OutcomesRelated State.SameButSlack (s.hostWrite off width v) (t.hostWrite off width v) := by
  unfold State.hostWrite
  cases accessedReg off width with
  | next r => exact h.map (s.writeReg_withBuf · r v) (s.writeReg_buffer r v)
  | fault e => rfl
  | refused e => rfl

theorem State.SameButSlack.hostRead {s t : State} (h : s.SameButSlack t) (off width : Nat) :
    OutcomesRelated State.SameButSlack (s.hostRead off width) (t.hostRead off width) := by
  unfold State.hostRead
  cases accessedReg off width with
  | next r =>
    refine h.map (f := fun u => { u.afterRead with got := u.got ++ [u.readValue r] }) (fun b => ?_) ?_
    · rw [State.readValue_withBuf, State.afterRead_withBuf]
      rfl
    · rw [State.afterRead_eq]
      exact ⟨rfl, rfl⟩
  | fault e => rfl
  | refused e => rfl

theorem State.SameButSlack.hostStep {s t : State} (h : s.SameButSlack t) :
    OutcomesRelated State.SameButSlack s.hostStep t.hostStep := by
  have same : t.events = s.events := by
    obtain ⟨b, -, rfl⟩ := h.exists_withBuf
    rfl
  unfold State.hostStep
  rw [same]
  cases s.events with
  | nil => exact h
  | cons e rest =>
    cases e with
    | write off width v => exact (h.withEvents rest).hostWrite off width v
    | read off width => exact (h.withEvents rest).hostRead off width
    | wait =>
      refine h.map (s.hostWait_withBuf · rest) ?_
      rw [State.hostWait_eq]
      exact ⟨rfl, rfl⟩
    | reset =>
      obtain ⟨b, -, rfl⟩ := h.exists_withBuf
      exact ⟨rfl, fun _ _ _ => rfl⟩

/-! ## ABSORB (R140 to R143) -/

/-- COUNT wraps at a multiple of 16, so the place of the next byte moves by one even there. -/
theorem count_succ_mod (c : BitVec 64) : (c + 1).toNat % 16 = (c.toNat % 16 + 1) % 16 := by
  rw [BitVec.toNat_add]
  simp only [BitVec.reduceToNat]
  omega

theorem State.SameButSlack.absorbByte {s t : State} (h : s.SameButSlack t) (x : Byte) :
    (s.absorbByte x).SameButSlack (t.absorbByte x) := by
  obtain ⟨b, valid, rfl⟩ := h.exists_withBuf
  have written (k : Nat) (hk : k < 16) (upTo : k ≤ s.count.toNat % 16) :
      (s.absorbByte x).buf[k] = ((s.withBuf b).absorbByte x).buf[k] := by
    simp only [State.absorbByte_buf, State.withBuf, Vector.getElem_set]
    split
    next => rfl
    next earlier => exact valid k hk (by omega)
  have tag : (s.absorbByte x).tag = ((s.withBuf b).absorbByte x).tag := by
    rw [State.absorbByte_tag, State.absorbByte_tag, ← State.absorbByte_buf, ← State.absorbByte_buf]
    by_cases full : s.count.toNat % 16 = 15
    · have whole : (s.absorbByte x).buf = ((s.withBuf b).absorbByte x).buf :=
        Vector.ext fun k hk => written k hk (by omega)
      rw [whole]
      rfl
    · rw [if_neg full]
      exact (if_neg full).symm
  refine ⟨?_, fun k hk old => written k hk ?_⟩
  · rw [State.absorbByte_frame (s.withBuf b), ← tag, s.absorbByte_frame]
    rfl
  · rw [State.absorbByte_count, count_succ_mod] at old
    omega

theorem State.SameButSlack.absorbBytes {s t : State} (h : s.SameButSlack t) (bs : List Byte) :
    (s.absorbBytes bs).SameButSlack (t.absorbBytes bs) := by
  induction bs generalizing s t with
  | nil => exact h
  | cons x bs ih => exact ih (h.absorbByte x)

/-! ## FINALIZE_VALUE (R160 to R164) -/

theorem State.finalizeValue_withBuf {s : State} {b : Buffer} (valid : s.ValidIn b) :
    (s.withBuf b).finalizeValue.1 = s.finalizeValue.1 ∧
    ∀ (k : Nat) (h : k < 16), k < s.count.toNat % 16 → s.finalizeValue.2[k] = (s.withBuf b).finalizeValue.2[k] := by
  unfold State.finalizeValue
  by_cases full : s.count.toNat ≠ 0 ∧ s.count.toNat % 16 = 0
  · rw [finalizeValue_of_full full, finalizeValue_of_full (count := (s.withBuf b).count) full]
    exact ⟨rfl, fun k _ none => by omega⟩
  · have padded :
        padBlock (s.withBuf b).buf ((s.withBuf b).count.toNat % 16) = padBlock s.buf (s.count.toNat % 16) :=
      (padBlock_congr valid).symm
    rw [finalizeValue_of_padded full, finalizeValue_of_padded (count := (s.withBuf b).count) full, padded]
    exact ⟨rfl, fun _ _ _ => rfl⟩

/-! ## The engine's step, and every step -/

theorem State.SameButSlack.effect {s t : State} (h : s.SameButSlack t) (i : Instr) :
    (effect i s).SameButSlack (effect i t) := by
  obtain ⟨b, valid, rfl⟩ := h.exists_withBuf
  cases i with
  | nop => exact h
  | init => exact ⟨rfl, fun k _ none => absurd none (Nat.not_lt_zero k)⟩
  | absorb n =>
    exact (h.absorbBytes (dinBytes s.absorbData n.toNat)).map
      (f := fun u => { u with fsm := if 1 ≤ n then .absorbing else s.fsm }) (fun _ => rfl) ⟨rfl, rfl⟩
  | final =>
    obtain ⟨tag, block⟩ := State.finalizeValue_withBuf valid
    refine ⟨?_, block⟩
    simp only [Machine.effect, tag]
    rfl
  | finalK =>
    obtain ⟨tag, -⟩ := State.finalizeValue_withBuf valid
    refine ⟨?_, valid⟩
    simp only [Machine.effect, tag]
    rfl
  | perm => exact h.map (f := Machine.effect .perm) (fun _ => rfl) ⟨rfl, rfl⟩

theorem State.SameButSlack.exec {s t : State} (h : s.SameButSlack t) (i : Instr) :
    OutcomesRelated State.SameButSlack (exec i s) (exec i t) := by
  have checks : t.commandError i = s.commandError i := by
    obtain ⟨b, -, rfl⟩ := h.exists_withBuf
    exact State.commandError_congr i rfl rfl
  obtain ⟨wf, admissible, hx⟩ | ⟨e, wf, failing, hx⟩ | ⟨illFormed, hx⟩ := exec_cases i s
  · rw [hx, exec_of_admissible wf (checks.trans admissible)]
    exact h.effect i
  · rw [hx, exec_of_error wf (checks.trans failing)]
    exact h.reject e
  · rw [hx, exec_of_ill_formed illFormed]
    exact h.reject .eillegal

theorem OutcomesRelated.mapNext {R : State → State → Prop} {f : State → State} {o o' : Host.Outcome State Fault Refusal}
    (h : OutcomesRelated R o o') (keeps : ∀ s t, R s t → R (f s) (f t)) :
    OutcomesRelated R (mapNext f o) (mapNext f o') := by
  match o, o', h with
  | .next s, .next t, h => exact keeps s t h
  | .fault _, .fault _, h => exact h
  | .refused _, .refused _, h => exact h

theorem State.SameButSlack.engineStep {s t : State} (h : s.SameButSlack t) :
    OutcomesRelated State.SameButSlack (engineStep s) (engineStep t) := by
  have same : t.pend = s.pend := by
    obtain ⟨b, -, rfl⟩ := h.exists_withBuf
    rfl
  unfold Machine.engineStep
  rw [same]
  cases s.pend with
  | none => exact h
  | some p => exact (h.exec p.instr).mapNext fun u v h => h.map (f := State.complete) (fun _ => rfl) ⟨rfl, rfl⟩

theorem State.SameButSlack.step {s t : State} (h : s.SameButSlack t) :
    OutcomesRelated State.SameButSlack (step s) (step t) := by
  have same : t.mover = s.mover := by
    obtain ⟨b, -, rfl⟩ := h.exists_withBuf
    rfl
  unfold Machine.step
  rw [same]
  match s.mover with
  | none => exact h
  | some .host => exact h.takeTurn.hostStep
  | some .engine => exact h.takeTurn.engineStep

/-- Settles O5: no register reads BUF; a step of either agent keeps the relation, by the operations it is made of. -/
theorem unspecifiedBufferBytesReachNoOutput : Obligations.UnspecifiedBufferBytesReachNoOutput := by
  refine fun s t h => ⟨fun r => ?_, h.step⟩
  obtain ⟨b, -, rfl⟩ := h.exists_withBuf
  rw [State.readValue_withBuf]

end Sys2Proof.Machine
end

