-- ==== Sys2Proof/Proofs/CommandWords.lean ====
section
/-! PROOFS of the statements about command words and the lines that stand for them (30_encoding.md R70 to R76, R78). -/

namespace Sys2Proof.Machine

/-- Settles O20: the words that decode are the encodings of the well-formed commands. -/
theorem decodeAndEncodeAgree : Obligations.DecodeAndEncodeAgree :=
  ⟨fun _ wf => decode_eq_ok_iff.2 ⟨wf, rfl⟩, fun _ _ => decode_eq_ok_iff.1⟩

/-- Settles O21: each word is one value of the decoder. -/
theorem spelledOutWordsDecode : Obligations.SpelledOutWordsDecode := by
  unfold Obligations.SpelledOutWordsDecode
  decide

/-- The word of ABSORB n: n stands from bit 4 on (R71, R73). -/
theorem encode_absorb {n : Nat} (hn : n ≤ 4) :
    encode (.absorb (BitVec.ofNat 3 n)) = BitVec.ofNat 32 (0x00000002 + 16 * n) := by
  interval_cases n <;> decide

theorem lineWord_absorb {m : String} (hm : m ∈ ["ABSORB", "absorb", "PROCESS", "process"]) (n : Nat) :
    lineWord m (some n) = if n ≤ 4 then some (encode (.absorb (BitVec.ofNat 3 n))) else none := by
  simp only [lineWord, hm, true_and]

/-- Settles O23: the lines without an operand one by one, and ABSORB's by its count. -/
theorem commandLinesStandForTheirWords : Obligations.CommandLinesStandForTheirWords := by
  refine ⟨by decide, by decide, fun m hm n => ⟨fun legal => ?_, fun past => ?_⟩, by decide, by decide, by decide,
    fun _ => rfl⟩
  · rw [lineWord_absorb hm, if_pos legal, encode_absorb legal]
  · rw [lineWord_absorb hm, if_neg (by omega)]

end Sys2Proof.Machine
end

