-- ==== Sys2Proof/Proofs/Waiting.lean ====
section
/-! PROOFS of the statements about WAIT and the feeding of a message (30_encoding.md R79 to R81; 70_reset_and_hazards.md
R233, R237). No command reads or writes what the agents do next, so however many turns the host's reads of STATUS take
before the engine's, the engine's step is the same; a message is then fed group by group. -/

namespace Sys2Proof.Machine

/-! ## What the agents do next is no part of a command -/

/-- s with another list of events, other turns and another count of free draws. -/
def State.withAgents (es : List Event) (sch : List Agent) (n : Nat) (s : State) : State :=
  { s with events := es, sched := sch, draws := n }

section
variable (es : List Event) (sch : List Agent) (n : Nat) (s : State)

@[simp] theorem State.withAgents_withAgents (es' : List Event) (sch' : List Agent) (n' : Nat) :
    (s.withAgents es sch n).withAgents es' sch' n' = s.withAgents es' sch' n' := rfl

theorem State.takeTurn_eq_withAgents : s.takeTurn = s.withAgents s.events s.takeTurn.sched s.draws := s.takeTurn_eq

theorem State.reject_withAgents (e : ErrCode) :
    (s.withAgents es sch n).reject e = (s.reject e).withAgents es sch n := by
  cases record : s.err <;> simp [State.reject, State.withAgents, record]

theorem State.absorbBytes_withAgents (bs : List Byte) :
    (s.withAgents es sch n).absorbBytes bs = (s.absorbBytes bs).withAgents es sch n := by
  obtain ⟨tag, buf, count⟩ := State.absorbBytes_congr (s.withAgents es sch n) s bs rfl rfl rfl rfl
  rw [State.absorbBytes_frame, tag, buf, count, s.absorbBytes_frame bs]
  rfl

theorem effect_withAgents (i : Instr) :
    effect i (s.withAgents es sch n) = (effect i s).withAgents es sch n := by
  cases i with
  | nop | init | final | finalK | perm => rfl
  | absorb c =>
    have data : (s.withAgents es sch n).absorbData = s.absorbData := rfl
    simp only [effect, absorbed, data, State.absorbBytes_withAgents]
    rfl

theorem exec_withAgents (i : Instr) :
    exec i (s.withAgents es sch n) = mapNext (State.withAgents es sch n) (exec i s) := by
  have checks : (s.withAgents es sch n).commandError i = s.commandError i := State.commandError_congr i rfl rfl
  obtain ⟨wf, admissible, hx⟩ | ⟨e, wf, failing, hx⟩ | ⟨illFormed, hx⟩ := exec_cases i s
  · rw [hx, exec_of_admissible wf (checks.trans admissible), effect_withAgents, mapNext]
  · rw [hx, exec_of_error wf (checks.trans failing), State.reject_withAgents, mapNext]
  · rw [hx, exec_of_ill_formed illFormed, State.reject_withAgents, mapNext]

theorem engineStep_withAgents :
    engineStep (s.withAgents es sch n) = mapNext (State.withAgents es sch n) (engineStep s) := by
  have same : (s.withAgents es sch n).pend = s.pend := rfl
  unfold engineStep
  rw [same]
  cases s.pend with
  | none => rfl
  | some p =>
    simp only [exec_withAgents]
    cases exec p.instr s <;> rfl

end

/-! ## WAIT (R79) -/

theorem step_engine {s : State} {p : Pending} (h : s.EngineMoves p) : step s = engineStep s.takeTurn := by
  simp only [step, h.1]

theorem engineStep_idle {s u : State} (h : engineStep s = .next u) (busy : s.pend ≠ none) :
    u.pend = none ∧ u.busy = false := by
  unfold engineStep at h
  cases hp : s.pend with
  | none => exact absurd hp busy
  | some p =>
    simp only [hp] at h
    cases hx : exec p.instr s with
    | next v =>
      rw [hx] at h
      cases h
      exact ⟨rfl, rfl⟩
    | fault e => rw [hx] at h; cases h
    | refused e => rw [hx] at h; cases h

/-- On an idle core one read of STATUS ends the WAIT. -/
theorem run_wait_of_idle {s : State} {rest : List Event} (empty : s.pend = none) (idle : s.busy = false)
    (he : s.events = .wait :: rest) :
    Host.Core.run Sys2Proof.core 1 s = .next (s.withAgents rest s.sched s.draws) := by
  have moves : s.HostMoves .wait rest := ⟨State.mover_of_idle empty he, he⟩
  have ended : step s = .next (s.withAgents rest s.sched s.draws) := by
    rw [step_wait moves, State.takeTurn_of_idle s empty, State.hostWait_eq]
    simp [State.afterRead, idle, State.withAgents]
  exact core_run_succ ended

/-- The engine's turn while the host waits: the command completes, and the next read of STATUS ends the WAIT. -/
theorem run_wait_of_engineMoves {s u : State} {p : Pending} {rest : List Event} (moves : s.EngineMoves p)
    (he : s.events = .wait :: rest) (hu : engineStep s = .next u) :
    Host.Core.run Sys2Proof.core 2 s = .next (u.withAgents rest s.takeTurn.sched s.draws) := by
  have ran : step s = .next (u.withAgents s.events s.takeTurn.sched s.draws) := by
    rw [step_engine moves, State.takeTurn_eq_withAgents, engineStep_withAgents, hu, mapNext]
    rfl
  obtain ⟨empty, idle⟩ := engineStep_idle hu (by simp [moves.2])
  exact (core_run_succ ran).trans (run_wait_of_idle empty idle he)

/-- The host's turn while it waits: one read of STATUS, and the WAIT goes on. -/
theorem step_wait_of_busy {s : State} {rest : List Event} (moves : s.HostMoves .wait rest) (busy : s.busy = true) :
    step s = .next (s.withAgents s.events s.takeTurn.sched (s.draws + 1)) := by
  have turnBusy : s.takeTurn.busy = true := s.takeTurn_busy.trans busy
  rw [step_wait moves, State.hostWait_eq, if_pos turnBusy, State.afterRead, if_pos turnBusy, s.takeTurn_eq]
  rfl

/-- With a command in flight the WAIT ends after the engine's step, wherever in `sched` the engine's turn stands. -/
theorem run_wait_of_inFlight {s u : State} {p : Pending} {rest : List Event} (hp : s.pend = some p)
    (busy : s.busy = true) (he : s.events = .wait :: rest) (hu : engineStep s = .next u) :
    ∃ (k : Nat) (sch : List Agent) (n : Nat), k ≤ s.sched.length + 2 ∧
      Host.Core.run Sys2Proof.core k s = .next (u.withAgents rest sch n) := by
  have mover := State.mover_of_both hp he
  induction turns : s.sched generalizing s u with
  | nil =>
    rw [turns] at mover
    exact ⟨2, _, _, by simp, run_wait_of_engineMoves ⟨mover, hp⟩ he hu⟩
  | cons a later ih =>
    rw [turns] at mover
    cases a with
    | engine => exact ⟨2, _, _, by simp, run_wait_of_engineMoves ⟨mover, hp⟩ he hu⟩
    | host =>
      have read := step_wait_of_busy ⟨mover, he⟩ busy
      have left : s.takeTurn.sched = later := by simp [State.takeTurn, hp, he, turns]
      have same : engineStep (s.withAgents s.events later (s.draws + 1)) =
          .next (u.withAgents s.events later (s.draws + 1)) := by rw [engineStep_withAgents, hu, mapNext]
      rw [left] at read
      obtain ⟨k, sch, n, bound, run⟩ := ih (s := s.withAgents s.events later (s.draws + 1)) hp busy he same
        (State.mover_of_both hp he) rfl
      exact ⟨k + 1, sch, n, by rw [List.length_cons]; omega, (core_run_succ read).trans run⟩

/-- Settles O53: at once on an idle core, and after the engine's step with a command in flight. -/
theorem waitAlwaysEnds : Obligations.WaitAlwaysEnds := by
  intro s rest inv he
  cases hp : s.pend with
  | none =>
    have idle : s.busy = false := by rw [inv.busy_pend, hp]; rfl
    exact ⟨1, _, by omega, run_wait_of_idle hp idle he, rfl, idle⟩
  | some p =>
    have busy : s.busy = true := by rw [inv.busy_pend, hp]; rfl
    obtain ⟨k, sch, n, bound, run⟩ := run_wait_of_inFlight hp busy he (engineStep_of_inv inv hp)
    exact ⟨k, _, bound, run, rfl, rfl⟩

/-! ## One group of a message (R80) -/

section
variable (s : State) (m : List Byte)

theorem State.absorbMessage_withAgents (es : List Event) (sch : List Agent) (n : Nat) :
    (s.withAgents es sch n).absorbMessage m = (s.absorbMessage m).withAgents es sch n := by
  unfold State.absorbMessage
  rw [State.absorbBytes_withAgents]
  rfl

theorem State.absorbMessage_withHostOperands (d : Word) (k : Quad) :
    (s.withHostOperands d k).absorbMessage m = (s.absorbMessage m).withHostOperands d k := by
  unfold State.absorbMessage
  rw [State.absorbBytes_withHostOperands]
  rfl

end

theorem State.afterEvent_of_idle {s : State} (empty : s.pend = none) (rest : List Event) :
    s.afterEvent rest = s.withAgents rest s.sched s.draws := by
  rw [State.afterEvent, State.takeTurn_of_idle s empty]
  rfl

/-- ABSORB n and WAIT on an idle core with a Context and room in COUNT. -/
theorem run_absorbLine {s : State} {n : BitVec 3} {rest : List Event} (hn : n ≤ 4) (context : s.InContext)
    (idle : s.busy = false) (empty : s.pend = none) (room : s.count.toNat + n.toNat ≤ 2 ^ 64 - 1)
    (he : s.events = cmdLine (.absorb n) :: .wait :: rest) :
    ∃ (k : Nat) (sch : List Agent) (d : Nat), Host.Core.run Sys2Proof.core k s =
      .next ((s.absorbMessage (dinBytes s.din n.toNat)).withAgents rest sch d) := by
  have legal : decode (encode (.absorb n)) = .ok (.absorb n) := decode_eq_ok_iff.2 ⟨decide_eq_true hn, rfl⟩
  have checks : s.commandError (.absorb n) = none :=
    State.commandError_of_context _ context fun _ h => by cases h; exact room
  have accepted := (step_cmdWrite_of_legal ⟨State.mover_of_idle empty he, he⟩ idle legal).2 checks
  rw [State.afterEvent_of_idle empty] at accepted
  have absorbed : engineStep ((s.withAgents (.wait :: rest) s.sched s.draws).accept (.absorb n)) =
      .next ((s.withAgents (.wait :: rest) s.sched s.draws).absorbMessage (dinBytes s.din n.toNat)) :=
    runCommand_absorb s.din hn context idle empty room
  rw [State.absorbMessage_withAgents] at absorbed
  obtain ⟨k, sch, d, -, run⟩ := run_wait_of_inFlight (State.accept_pend _ _) rfl rfl absorbed
  exact ⟨k + 1, sch, d, (core_run_succ accepted).trans run⟩

/-- FEED on such a core: the group's bytes are absorbed, and DIN keeps its word. -/
theorem run_feedLines {s : State} {w : Word} {n : BitVec 3} {rest : List Event} (hn : n ≤ 4) (context : s.InContext)
    (idle : s.busy = false) (empty : s.pend = none) (room : s.count.toNat + n.toNat ≤ 2 ^ 64 - 1)
    (he : s.events = feedLines w n ++ rest) :
    ∃ (k : Nat) (sch : List Agent) (d : Nat), Host.Core.run Sys2Proof.core k s =
      .next (((s.absorbMessage (dinBytes w n.toNat)).withHostOperands w s.key).withAgents rest sch d) := by
  have written : step s = .next ((s.withHostOperands w s.key).withAgents
      (cmdLine (.absorb n) :: .wait :: rest) s.sched s.draws) := by
    rw [step_write (off := 0x08) (r := .din) ⟨State.mover_of_idle empty he, he⟩ rfl rfl,
      State.afterEvent_of_idle empty]
    rfl
  obtain ⟨k, sch, d, run⟩ := run_absorbLine (s := (s.withHostOperands w s.key).withAgents _ s.sched s.draws) hn
    context idle empty room rfl
  rw [State.absorbMessage_withAgents, State.absorbMessage_withHostOperands] at run
  exact ⟨k + 1, sch, d, (core_run_succ written).trans run⟩

/-! ## A whole message (R81) -/

theorem dinBytes_wordOfBytes (b0 b1 b2 b3 : Byte) {n : Nat} (hn : n ≤ 4) :
    dinBytes (wordOfBytes b0 b1 b2 b3) n = [b0, b1, b2, b3].take n := by
  have byte (k : Fin 4) := byteOf_wordOfBytes ![b0, b1, b2, b3] k
  have four : dinBytes (wordOfBytes b0 b1 b2 b3) 4 = [b0, b1, b2, b3] :=
    congr (congrArg List.cons (byte 0)) (congr (congrArg List.cons (byte 1)) (congr (congrArg List.cons (byte 2))
      (congrArg (fun b => [b]) (byte 3))))
  rw [← four, dinBytes, dinBytes, ← List.map_take, List.take_range, Nat.min_eq_left hn]

/-- A message is empty, or a first group of 1 to 4 bytes and the rest. -/
theorem feedMessage_cases (m : List Byte) : m = [] ∨ ∃ (w : Word) (n : BitVec 3) (m' : List Byte),
    1 ≤ n ∧ n ≤ 4 ∧ m = dinBytes w n.toNat ++ m' ∧ feedMessage m = feedLines w n ++ feedMessage m' := by
  match m with
  | [] => exact .inl rfl
  | [b0] => exact .inr ⟨wordOfBytes b0 0 0 0, 1, [], by decide, by decide, by simp [dinBytes_wordOfBytes], rfl⟩
  | [b0, b1] => exact .inr ⟨wordOfBytes b0 b1 0 0, 2, [], by decide, by decide, by simp [dinBytes_wordOfBytes], rfl⟩
  | [b0, b1, b2] =>
    exact .inr ⟨wordOfBytes b0 b1 b2 0, 3, [], by decide, by decide, by simp [dinBytes_wordOfBytes], rfl⟩
  | b0 :: b1 :: b2 :: b3 :: m' =>
    exact .inr ⟨wordOfBytes b0 b1 b2 b3, 4, m', by decide, by decide, by simp [dinBytes_wordOfBytes], rfl⟩

theorem run_feedMessage {s : State} {m : List Byte} {rest : List Event} (context : s.InContext)
    (idle : s.busy = false) (empty : s.pend = none) (room : s.count.toNat + m.length ≤ 2 ^ 64 - 1)
    (he : s.events = feedMessage m ++ rest) :
    ∃ (k : Nat) (w : Word) (sch : List Agent) (d : Nat), Host.Core.run Sys2Proof.core k s =
      .next (((s.absorbMessage m).withHostOperands w s.key).withAgents rest sch d) := by
  obtain rfl | ⟨w, n, m', nonempty, hn, split, group⟩ := feedMessage_cases m
  · refine ⟨0, s.din, s.sched, s.draws, ?_⟩
    rw [show rest = s.events from he.symm]
    rfl
  · have length : m.length = n.toNat + m'.length := by rw [split, List.length_append, dinBytes_length]
    have shorter : m'.length < m.length := by bv_omega
    rw [group, List.append_assoc] at he
    obtain ⟨k, sch, d, run⟩ := run_feedLines hn context idle empty (by omega) he
    have counted := s.absorbMessage_count_toNat (dinBytes w n.toNat) (by rw [dinBytes_length]; omega)
    have left : (s.absorbMessage (dinBytes w n.toNat)).count.toNat + m'.length ≤ 2 ^ 64 - 1 := by
      rw [counted, dinBytes_length]
      omega
    obtain ⟨k', w', sch', d', run'⟩ := run_feedMessage (m := m')
      (s := ((s.absorbMessage (dinBytes w n.toNat)).withHostOperands w s.key).withAgents (feedMessage m' ++ rest) sch d)
      (s.absorbMessage_inContext _ context) ((s.absorbMessage_busy _).trans idle)
      ((s.absorbMessage_pend _).trans empty) left rfl
    refine ⟨k + k', w', sch', d', (run_add run).trans (run'.trans ?_)⟩
    rw [State.absorbMessage_withAgents, State.absorbMessage_withHostOperands, split, s.absorbMessage_append]
    rfl
termination_by m.length

/-- Settles O24: the first group is one FEED, and what it leaves is an idle core with a Context again. -/
theorem feedingAMessageAbsorbsItsBytes : Obligations.FeedingAMessageAbsorbsItsBytes := by
  intro s m rest inv idle context he room
  have empty : s.pend = none := by
    rw [← Option.isNone_iff_eq_none, ← Option.not_isSome, ← inv.busy_pend, idle]
    rfl
  obtain ⟨k, w, sch, d, run⟩ := run_feedMessage context idle empty room he
  exact ⟨k, _, run, rfl, (s.absorbMessage_busy m).trans idle, (s.absorbMessage_pend m).trans empty, rfl, rfl, rfl, rfl,
    rfl, s.absorbBytes_k1 m, s.absorbBytes_k2 m, s.absorbBytes_tout m, s.absorbBytes_err m, s.absorbBytes_errCode m,
    s.absorbBytes_got m⟩

end Sys2Proof.Machine
end

