-- ==== Sys2Proof/Proofs/Commands.lean ====
section
/-! PROOFS of the statements about single commands (40_arx_permutation.md R106; 41_subkey_derivation.md R122; 42_absorb.md
R140 to R143; 43_finalize.md R166, R167; 44_control.md R180). What a command does when it passes its checks is its
`effect`, and what it does otherwise is one rejection; of ABSORB's bytes it is shown where each goes in BUF, and when they
complete a block. -/

namespace Sys2Proof.Machine

/-! ## NOP, PERM, INIT, FINAL and FINAL.K -/

/-- Settles O44: NOP passes every check and its effect is none. -/
theorem nopWritesNothing : Obligations.NopWritesNothing := fun _ => exec_of_admissible rfl rfl

/-- Settles O29: PERM passes every check, and PERMUTE is the round iterated. -/
theorem permPermutesTagAlone : Obligations.PermPermutesTagAlone := by
  intro s
  rw [exec_of_admissible (i := .perm) rfl rfl, effect, permute_eq_iterate]
  rfl

/-- Settles O31: INIT passes every check, and takes its key from PEND. -/
theorem initStartsAContext : Obligations.InitStartsAContext := by
  intro s kin sampled
  have key : s.kin = kin := by rw [State.kin, sampled]
  rw [exec_of_admissible (i := .init) rfl rfl, effect, key]

theorem exec_final {s : State} (context : s.InContext) : exec .final s = .next (effect .final s) :=
  exec_of_admissible rfl (State.commandError_of_context .final context nofun)

theorem exec_finalK {s : State} (context : s.InContext) : exec .finalK s = .next (effect .finalK s) :=
  exec_of_admissible rfl (State.commandError_of_context .finalK context nofun)

/-- Settles O37: FINAL's effect; BUF keeps its bytes where FINALIZE_VALUE takes the branch without padding. -/
theorem finalWritesTheTag : Obligations.FinalWritesTheTag := by
  refine fun s context => ⟨s.finalizeValue.1, s.finalizeValue.2, rfl, exec_final context, fun full => ?_⟩
  rw [State.finalizeValue, finalizeValue_of_full full]

/-- Settles O38: the two effects have one TOUT. -/
theorem finalKWritesToutAlone : Obligations.FinalKWritesToutAlone :=
  fun _ context => ⟨_, exec_final context, exec_finalK context⟩

/-- Settles O39: both commands need a Context. -/
theorem finalWithoutAContextRaises : Obligations.FinalWithoutAContextRaises := fun _ out =>
  ⟨exec_of_error rfl (State.commandError_of_outOfContext (.inr (.inl rfl)) out),
    exec_of_error rfl (State.commandError_of_outOfContext (.inr (.inr rfl)) out)⟩

/-! ## What every command leaves alone -/

theorem exec_effect_or_reject (i : Instr) (s : State) :
    exec i s = .next (effect i s) ∨ ∃ e, exec i s = .next (s.reject e) := by
  obtain ⟨-, -, hx⟩ | ⟨e, -, -, hx⟩ | ⟨-, hx⟩ := exec_cases i s
  · exact .inl hx
  · exact .inr ⟨e, hx⟩
  · exact .inr ⟨.eillegal, hx⟩

/-- Settles O45: an effect writes the Context and TOUT, a rejection the error record. -/
theorem everyCommandAnswersWithItsFrame : Obligations.EveryCommandAnswersWithItsFrame := by
  intro i s
  obtain hx | ⟨e, hx⟩ := exec_effect_or_reject i s
  · refine ⟨_, hx, ?_⟩
    rw [effect_frame]
    simp only [and_self]
  · refine ⟨_, hx, ?_⟩
    rw [s.reject_frame e]
    simp only [and_self]

/-! ## ABSORB: the forms that raise (R143, R205) -/

/-- Settles O33: an ill-formed term is no command; the others fail the check of FSM, or that of COUNT. -/
theorem absorbRaisesBeforeAnyWrite : Obligations.AbsorbRaisesBeforeAnyWrite := by
  refine fun s n => ⟨fun past => ?_, fun legal out => ?_, fun legal context past => ?_⟩
  · exact exec_of_ill_formed (decide_eq_false (BitVec.not_le.2 past))
  · exact exec_of_error (decide_eq_true legal) (State.commandError_of_outOfContext (.inl ⟨n, rfl⟩) out)
  · exact exec_of_error (decide_eq_true legal) (State.commandError_of_countPast context past)

/-! ## ABSORB: the bytes of BUF and the completed block (R140 to R142) -/

section
variable (s : State) (bs : List Byte)

theorem State.absorbBytes_concat (b : Byte) : s.absorbBytes (bs ++ [b]) = (s.absorbBytes bs).absorbByte b :=
  s.absorbBytes_append bs [b]

theorem State.absorbBytes_count_mod :
    (s.absorbBytes bs).count.toNat % 16 = (s.count.toNat + bs.length) % 16 := by
  rw [State.absorbBytes_count, BitVec.toNat_add, BitVec.toNat_ofNat]
  omega

/-- Up to 16 bytes go to different places of BUF, from COUNT mod 16 on and around its end (R140). -/
theorem State.getElem_absorbBytes_buf (once : bs.length ≤ 16) {k : Nat} (hk : k < 16) :
    (s.absorbBytes bs).buf[k] =
      if (k + 16 - s.count.toNat % 16) % 16 < bs.length then bs.getD ((k + 16 - s.count.toNat % 16) % 16) 0
      else s.buf[k] := by
  induction bs using List.reverseRecOn with
  | nil => rfl
  | append_singleton bs b ih =>
    rw [List.length_append, List.length_singleton] at once
    have place := s.absorbBytes_count_mod bs
    simp only [State.absorbBytes_concat, State.absorbByte_buf, Vector.getElem_set, ih (by omega),
      List.length_append, List.length_singleton, List.getD_eq_getElem?_getD]
    obtain earlier | last | other : (k + 16 - s.count.toNat % 16) % 16 < bs.length ∨
        (k + 16 - s.count.toNat % 16) % 16 = bs.length ∨ bs.length < (k + 16 - s.count.toNat % 16) % 16 := by omega
    · rw [if_neg (by omega), if_pos earlier, if_pos (by omega), List.getElem?_append_left earlier]
    · rw [if_pos (by omega), if_pos (by omega), last]
      simp
    · rw [if_neg (by omega), if_neg (by omega), if_neg (by omega)]

/-- Bytes that do not fill the block leave TAG (R140). -/
theorem State.absorbBytes_tag_of_inside (inside : s.count.toNat % 16 + bs.length < 16) :
    (s.absorbBytes bs).tag = s.tag := by
  induction bs using List.reverseRecOn with
  | nil => rfl
  | append_singleton bs b ih =>
    rw [List.length_append, List.length_singleton] at inside
    have place := s.absorbBytes_count_mod bs
    rw [State.absorbBytes_concat, State.absorbByte_tag, if_neg (by omega), ih (by omega)]

/-- Bytes that fill the block exactly mix it in, after a permutation unless it is the first (R141, R142). -/
theorem State.absorbBytes_tag_of_full (full : s.count.toNat % 16 + bs.length = 16)
    (room : s.count.toNat + bs.length ≤ 2 ^ 64 - 1) :
    (s.absorbBytes bs).tag =
      (if s.count.toNat < 16 then s.tag else permute s.rounds s.tag).xor (wordView (s.absorbBytes bs).buf) := by
  induction bs using List.reverseRecOn with
  | nil => rw [List.length_nil] at full; omega
  | append_singleton bs b _ =>
    rw [List.length_append, List.length_singleton] at full room
    have place := s.absorbBytes_count_mod bs
    have later : (s.absorbBytes bs).count + 1 - 16 ≠ 0 ↔ ¬ s.count.toNat < 16 := by
      rw [State.absorbBytes_count, ← BitVec.toNat_ne_iff_ne, BitVec.toNat_sub, BitVec.toNat_add, BitVec.toNat_add,
        BitVec.toNat_ofNat]
      simp only [BitVec.reduceToNat]
      omega
    rw [State.absorbBytes_concat, State.absorbByte_tag, if_pos (by omega), ← State.absorbByte_buf,
      State.absorbBytes_rounds, s.absorbBytes_tag_of_inside bs (by omega)]
    simp only [later, ite_not]

/-- Bytes that go past the end of the block: only those up to the end count for TAG. -/
theorem State.absorbBytes_tag_of_past (past : 16 ≤ s.count.toNat % 16 + bs.length) (once : bs.length ≤ 16)
    (room : s.count.toNat + bs.length ≤ 2 ^ 64 - 1) :
    (s.absorbBytes bs).tag =
      (if s.count.toNat < 16 then s.tag else permute s.rounds s.tag).xor
        (wordView (Vector.ofFn fun k : Fin 16 => if k.val < s.count.toNat % 16 then s.buf[k]
          else bs.getD (k.val - s.count.toNat % 16) 0)) := by
  obtain ⟨left, hleft⟩ : ∃ left, left = 16 - s.count.toNat % 16 := ⟨_, rfl⟩
  have filling : (bs.take left).length = left := by rw [List.length_take]; omega
  have place := s.absorbBytes_count_mod (bs.take left)
  have rest : ((s.absorbBytes (bs.take left)).absorbBytes (bs.drop left)).tag = (s.absorbBytes (bs.take left)).tag :=
    State.absorbBytes_tag_of_inside _ _ (by rw [List.length_drop]; omega)
  have block : (s.absorbBytes (bs.take left)).buf = Vector.ofFn fun k : Fin 16 =>
      if k.val < s.count.toNat % 16 then s.buf[k] else bs.getD (k.val - s.count.toNat % 16) 0 := by
    ext k hk : 1
    rw [s.getElem_absorbBytes_buf _ (by omega) hk, Vector.getElem_ofFn]
    by_cases old : k < s.count.toNat % 16
    · rw [if_neg (by omega), if_pos old]
      rfl
    · have index : (k + 16 - s.count.toNat % 16) % 16 = k - s.count.toNat % 16 := by omega
      have new : k - s.count.toNat % 16 < left := by omega
      rw [index, filling, if_pos new, if_neg old, List.getD_eq_getElem?_getD, List.getD_eq_getElem?_getD,
        List.getElem?_take_of_lt new]
  calc (s.absorbBytes bs).tag
    _ = (s.absorbBytes (bs.take left)).tag := by
      rw [← rest, ← State.absorbBytes_append, List.take_append_drop]
    _ = _ := by rw [s.absorbBytes_tag_of_full _ (by omega) (by omega), block]

end

theorem getD_dinBytes (d : Word) {n i : Nat} (hi : i < n) : (dinBytes d n).getD i 0 = d.extractLsb' (8 * i) 8 := by
  simp [dinBytes, hi, byteOf]

theorem effect_absorb_of_sampled {s : State} {n : BitVec 3} {d : Word} (sampled : s.pend = some (.absorb n d)) :
    effect (.absorb n) s = { s.absorbBytes (dinBytes d n.toNat) with fsm := if 1 ≤ n then .absorbing else s.fsm } := by
  have data : s.absorbData = d := by rw [State.absorbData, sampled]
  rw [effect, absorbed, data]

/-- Settles O32: ABSORB's effect is the absorption of DIN's first n bytes. -/
theorem absorbTakesItsBytesInOrder : Obligations.AbsorbTakesItsBytesInOrder := by
  intro s n d sampled legal context room
  have checks : s.commandError (.absorb n) = none :=
    State.commandError_of_context _ context fun _ h => by cases h; exact room
  have n4 : n.toNat ≤ 4 := legal
  have length := dinBytes_length d n.toNat
  have effect_eq := effect_absorb_of_sampled sampled
  refine ⟨_, exec_of_admissible (decide_eq_true legal) checks, ?_, ?_, ?_, fun k hk => ?_, fun inside => ?_,
    fun past => ?_⟩
  · rw [effect_absorb_frame]
  · rw [effect_absorb_frame]
    simp only [BitVec.toNat_add, BitVec.toNat_ofNat]
    omega
  · rw [effect_absorb_frame]
    by_cases none : n = 0
    · simp [none]
    · rw [if_neg none, if_pos (by bv_omega)]
  · rw [effect_eq, s.getElem_absorbBytes_buf _ (by omega) hk, length]
    split
    next new => exact getD_dinBytes d new
    next => rfl
  · rw [effect_eq]
    exact s.absorbBytes_tag_of_inside _ (by omega)
  · rw [effect_eq]
    refine (s.absorbBytes_tag_of_past _ (by omega) (by omega) (by omega)).trans ?_
    congr 3
    funext k
    split
    next => rfl
    next new => rw [getD_dinBytes d (by omega)]

end Sys2Proof.Machine
end

