-- ==== Sys2Proof/Proofs/Subkeys.lean ====
section
/-! PROOFS of the statements about FINAL.K within a message, and about the choice of subkey (43_finalize.md R161, R167 to
R170). ABSORB neither reads nor writes TOUT, and FINAL writes it without reading it. -/

namespace Sys2Proof.Machine

/-! ## FINAL.K within a message (R167) -/

/-- s with another TOUT, and with PEND and BUSY as an earlier command may have left them. -/
def State.withResult (T : Quad) (p : Option Pending) (b : Bool) (s : State) : State :=
  { s with tout := T, pend := p, busy := b }

section
variable (T : Quad) (p : Option Pending) (b : Bool) (s : State)

theorem State.reject_withResult (e : ErrCode) :
    (s.withResult T p b).reject e = (s.reject e).withResult T p b := by
  cases record : s.err <;> simp [State.reject, State.withResult, record]

theorem State.absorbBytes_withResult (bs : List Byte) :
    (s.withResult T p b).absorbBytes bs = (s.absorbBytes bs).withResult T p b := by
  obtain ⟨tag, buf, count⟩ := State.absorbBytes_congr (s.withResult T p b) s bs rfl rfl rfl rfl
  rw [State.absorbBytes_frame, tag, buf, count, s.absorbBytes_frame bs]
  rfl

end

theorem runCommand_eq (p : Pending) (s : State) :
    runCommand p s = mapNext State.complete (exec p.instr { s with pend := some p, busy := true }) := rfl

/-- An ABSORB in flight, on a state with another TOUT. -/
theorem exec_absorb_withResult (T : Quad) {n : BitVec 3} {d : Word} {s : State} (hp : s.pend = some (.absorb n d)) :
    exec (.absorb n) (s.withResult T (some (.absorb n d)) true) =
      mapNext (State.withResult T (some (.absorb n d)) true) (exec (.absorb n) s) := by
  have checks : (s.withResult T (some (.absorb n d)) true).commandError (.absorb n) = s.commandError (.absorb n) :=
    State.commandError_congr _ rfl rfl
  obtain ⟨wf, admissible, hx⟩ | ⟨e, wf, failing, hx⟩ | ⟨illFormed, hx⟩ := exec_cases (.absorb n) s
  · rw [hx, exec_of_admissible wf (checks.trans admissible), mapNext, effect_absorb_of_sampled hp,
      effect_absorb_of_sampled (d := d) rfl, State.absorbBytes_withResult]
    rfl
  · rw [hx, exec_of_error wf (checks.trans failing), State.reject_withResult, mapNext]
  · rw [hx, exec_of_ill_formed illFormed, State.reject_withResult, mapNext]

theorem exec_absorb_inContext (n : BitVec 3) {s : State} (context : s.InContext) :
    ∃ u, exec (.absorb n) s = .next u ∧ u.InContext := by
  obtain hx | ⟨e, hx⟩ := exec_effect_or_reject (.absorb n) s
  · refine ⟨_, hx, ?_⟩
    rw [effect_absorb_frame]
    by_cases bytes : 1 ≤ n
    · exact .inr (if_pos bytes)
    · simpa only [State.InContext, if_neg bytes] using context
  · refine ⟨_, hx, ?_⟩
    rwa [State.InContext, State.reject_fsm]

/-- A complete ABSORB keeps the Context, rejected or not, and does not look at TOUT. -/
theorem runCommand_absorb_withResult (n : BitVec 3) (d : Word) {s : State} (context : s.InContext) :
    ∃ u, runCommand (.absorb n d) s = .next u ∧ u.InContext ∧
      ∀ T p b, runCommand (.absorb n d) (s.withResult T p b) = .next (u.withResult T none false) := by
  obtain ⟨u, hu, kept⟩ := exec_absorb_inContext n (s := { s with pend := some (.absorb n d), busy := true }) context
  refine ⟨u.complete, ?_, kept, fun T p b => ?_⟩
  · rw [runCommand_eq, Pending.instr, hu, mapNext]
  · have result := exec_absorb_withResult T (s := { s with pend := some (.absorb n d), busy := true }) rfl
    rw [hu] at result
    rw [runCommand_eq]
    exact congrArg (mapNext State.complete) result

/-- ABSORBs and FINAL end alike whatever TOUT was: FINAL writes it. -/
theorem runCommands_absorbs_final_withResult {s : State} (cs : List (BitVec 3 × Word)) (context : s.InContext)
    (T : Quad) (p : Option Pending) (b : Bool) :
    runCommands (absorbs cs ++ [.final]) (s.withResult T p b) = runCommands (absorbs cs ++ [.final]) s := by
  induction cs generalizing s T p b with
  | nil =>
    have final : runCommand .final (s.withResult T p b) = runCommand .final s := by
      rw [runCommand_final context, runCommand_final (s := s.withResult T p b) context]
      rfl
    simp only [absorbs, List.map_nil, List.nil_append, runCommands, final]
  | cons c cs ih =>
    obtain ⟨u, plain, kept, result⟩ := runCommand_absorb_withResult c.1 c.2 context
    calc runCommands (.absorb c.1 c.2 :: (absorbs cs ++ [.final])) (s.withResult T p b)
      _ = runCommands (absorbs cs ++ [.final]) (u.withResult T none false) :=
        runCommands_cons_of_next _ (result T p b)
      _ = runCommands (absorbs cs ++ [.final]) u := ih kept T none false
      _ = runCommands (.absorb c.1 c.2 :: (absorbs cs ++ [.final])) s := (runCommands_cons_of_next _ plain).symm

/-- Settles O40: FINAL.K writes TOUT alone, and the rest ends alike whatever TOUT is. -/
theorem finalKLeavesTheMessageUndisturbed : Obligations.FinalKLeavesTheMessageUndisturbed := fun s cs context =>
  ⟨s.withResult s.finalizeValue.1 none false, runCommand_finalK context,
    runCommands_absorbs_final_withResult cs context _ none false⟩

/-! ## The full block that looks like the empty message's padding (R161, R168) -/

/-- Settles O42: a message of one full block takes k1, and its block is that of the empty message's padding. -/
theorem fullBlockTakesTheOtherSubkey : Obligations.FullBlockTakesTheOtherSubkey := by
  intro s key
  have bytes : absorbedBytes [(4, 0x00000001), (4, 0), (4, 0), (4, 0)] = 0x01 :: List.replicate 15 0 := by decide
  have block : messageBlock (0x01 :: List.replicate 15 0) 0 = ⟨0x00000001, 0, 0, 0⟩ := by decide
  obtain ⟨⟨t, run, tout, -⟩, -⟩ := tagIsTheOneShotForm s key [(4, 0x00000001), (4, 0), (4, 0), (4, 0)]
    (by simp [legalCounts, -Prod.forall])
    (by rw [bytes]; decide)
  refine ⟨t, run, tout.trans ?_⟩
  rw [bytes, oneShotTag_of_full _ _ (by decide), ← block]
  rfl

end Sys2Proof.Machine
end

