-- ==== Sys2Proof/Proofs/Agents.lean ====
section
/-! PROOFS of the statements about which step changes what (10_state.md R20 to R36; 20_memory.md R61;
70_reset_and_hazards.md R233, R237): issue, the two agents' turns, and the writer behind every change. -/

namespace Sys2Proof.Machine

/-! ## Turns and idle steps (R233, R240) -/

/-- Settles O54: nobody can move. -/
theorem idleCoreHoldsItsState : Obligations.IdleCoreHoldsItsState :=
  fun s empty noEvent => step_of_idle (s := s) (by rw [State.mover, empty, noEvent])

/-- Settles O50: the engine's step by its definition, and `takeTurn` by what it writes. -/
theorem engineStepRunsThePendingCommand : Obligations.EngineStepRunsThePendingCommand := by
  refine ⟨fun s p => step_of_engine, fun s => s.takeTurn_eq, fun s same busy noEvent => ?_⟩
  obtain ⟨p, hp⟩ := Option.isSome_iff_exists.1 (same.symm.trans busy)
  exact State.mover_of_no_event hp noEvent

/-! ## A placed word (log 3) -/

theorem decodeTableWord_eq_some_iff (w : Nat) (i : Instr) :
    decodeTableWord 32 w = some i ↔ decode (BitVec.ofNat 32 (w % 2 ^ 32)) = .ok i := by
  simp only [decodeTableWord, Nat.lt_irrefl, if_false]
  cases decode (BitVec.ofNat 32 (w % 2 ^ 32)) <;> simp

theorem decodeTableWord_eq_none_iff (w : Nat) :
    decodeTableWord 32 w = none ↔ ∃ e, decode (BitVec.ofNat 32 (w % 2 ^ 32)) = .error e := by
  simp only [decodeTableWord, Nat.lt_irrefl, if_false]
  cases decode (BitVec.ofNat 32 (w % 2 ^ 32)) <;> simp

theorem State.takeTurn_of_both {s : State} {p : Pending} {e : Event} {rest : List Event} (hp : s.pend = some p)
    (he : s.events = e :: rest) : s.takeTurn = { s with sched := s.sched.tail } := by
  rw [State.takeTurn, hp, he]

theorem State.afterEvent_of_both {s : State} {p : Pending} {e : Event} {es : List Event} (hp : s.pend = some p)
    (he : s.events = e :: es) (rest : List Event) :
    s.afterEvent rest = s.withAgents rest s.sched.tail s.draws := by
  rw [State.afterEvent, State.takeTurn_of_both hp he]
  rfl

/-- A legal word is put in PEND with the engine's turn in front of `sched`, and taking that turn uses it up. -/
theorem State.placeCommand_of_legal {s : State} {c : Word} {i : Instr} (legal : decode c = .ok i) :
    (s.placeCommand c).EngineMoves (s.sample i) ∧ (s.placeCommand c).takeTurn = s.accept i := by
  rw [State.placeCommand, legal]
  cases events : s.events with
  | nil => exact ⟨⟨State.mover_of_no_event rfl events, rfl⟩, State.takeTurn_of_no_event _ events⟩
  | cons e rest => exact ⟨⟨State.mover_of_both rfl events, rfl⟩, State.takeTurn_of_both rfl events⟩

/-- An illegal word is put in front of `events`, with the host's turn in front of `sched` where it needs one. -/
theorem State.placeCommand_of_illegal {s : State} {c : Word} {e : DecodeError} (illegal : decode c = .error e) :
    (s.placeCommand c).HostMoves (.write 0x00 4 c) s.events ∧ (s.placeCommand c).afterEvent s.events = s := by
  have events : (s.placeCommand c).events = .write 0x00 4 c :: s.events := by rw [State.placeCommand, illegal]
  have placed : s.placeCommand c = s.withAgents (.write 0x00 4 c :: s.events)
      (if s.pend.isSome then .host :: s.sched else s.sched) s.draws := by
    rw [State.placeCommand, illegal]
    rfl
  cases hp : (s.placeCommand c).pend with
  | none =>
    have idle : ¬ s.pend.isSome = true := by rw [placed] at hp; exact Option.not_isSome_iff_eq_none.2 hp
    refine ⟨⟨State.mover_of_idle hp events, events⟩, ?_⟩
    rw [State.afterEvent_of_idle hp, placed, if_neg idle]
    rfl
  | some p =>
    have busy : s.pend.isSome = true := by rw [placed] at hp; exact Option.isSome_of_eq_some hp
    refine ⟨⟨?_, events⟩, ?_⟩
    · rw [State.mover_of_both hp events, placed, if_pos busy]
      rfl
    · rw [State.afterEvent_of_both hp events, placed, if_pos busy]
      rfl

/-- Settles O51: the engine's step on the placed command, or the host's CMD write of the placed word. -/
theorem placedWordIsRunByTheNextStep : Obligations.PlacedWordIsRunByTheNextStep := by
  refine fun s w => ⟨fun i decoded => ?_, fun decoded => ?_⟩
  · have legal := (decodeTableWord_eq_some_iff w i).1 decoded
    obtain ⟨moves, taken⟩ := s.placeCommand_of_legal legal
    refine ⟨(decode_eq_ok_iff.1 legal).1, ?_⟩
    rw [State.withFetchWord, step_of_engine moves, taken, State.sample_instr]
    rfl
  · obtain ⟨e, illegal⟩ := (decodeTableWord_eq_none_iff w).1 decoded
    obtain ⟨moves, taken⟩ := s.placeCommand_of_illegal illegal
    rw [State.withFetchWord, step_cmdWrite moves, taken]
    cases busy : s.busy with
    | true => exact congrArg _ (State.presentCommand_of_busy busy)
    | false => exact congrArg _ (State.presentCommand_of_illegal busy illegal)

/-! ## The outside's step (R61, R237) -/

/-- Settles O16: a read or a WAIT writes nothing but the model's own lists and counters. -/
theorem readsChangeNoElement : Obligations.ReadsChangeNoElement := by
  intro s t rest e moves reads h
  have taken : s.takeTurn.events = e :: rest := s.takeTurn_events.trans moves.2
  rw [step_of_host moves] at h
  obtain ⟨off, v, r, rfl, -⟩ | ⟨off, r, rfl, -, -, rfl⟩ | ⟨rfl, rfl⟩ | ⟨rfl, -⟩ := State.hostStep_cases taken h
  · simp at reads
  · rw [State.afterRead_eq]
    simp [State.SameCore]
  · rw [State.hostWait_eq]
    simp [State.SameCore]
  · simp at reads

theorem State.writeReg_of_busy {s : State} (r : Reg) (v : Word) (busy : s.busy = true) :
    (s.writeReg r v).pend = s.pend ∧ (s.writeReg r v).busy = true := by
  by_cases cmd : r = .cmd
  · rw [cmd, State.writeReg, State.presentCommand_of_busy busy, State.reject_pend, State.reject_busy]
    exact ⟨rfl, busy⟩
  · rw [State.writeReg_frame r v s cmd]
    exact ⟨rfl, busy⟩

/-- Settles O52: a CMD write is rejected while BUSY = 1, and no other event but a reset reaches PEND and BUSY. -/
theorem commandStaysInFlightUntilTaken : Obligations.CommandStaysInFlightUntilTaken := by
  intro s t p e rest hp busy moves noReset h
  have taken : s.takeTurn.events = e :: rest := s.takeTurn_events.trans moves.2
  have turnPend : s.takeTurn.pend = some p := s.takeTurn_pend.trans hp
  have turnBusy : s.takeTurn.busy = true := s.takeTurn_busy.trans busy
  rw [step_of_host moves] at h
  obtain ⟨off, v, r, -, -, -, rfl⟩ | ⟨off, r, -, -, -, rfl⟩ | ⟨-, rfl⟩ | ⟨reset, -⟩ := State.hostStep_cases taken h
  · obtain ⟨pend, kept⟩ := State.writeReg_of_busy (s := { s.takeTurn with events := rest }) r v turnBusy
    exact ⟨pend.trans turnPend, kept⟩
  · rw [State.afterRead_eq]
    exact ⟨turnPend, turnBusy⟩
  · rw [State.hostWait_eq]
    exact ⟨turnPend, turnBusy⟩
  · exact absurd reset noReset

/-! ## Writers (R21 to R26, R30, R31) -/

section
variable {p : Pending} {s : State}

theorem effect_subkey_writer (change : (effect p.instr s).k1 ≠ s.k1 ∨ (effect p.instr s).k2 ≠ s.k2) :
    ∃ k, p = .init k := by
  cases p with
  | init k => exact ⟨k, rfl⟩
  | nop | final | finalK | perm => exact absurd change (by simp [Pending.instr, effect])
  | absorb n d =>
    rw [Pending.instr, effect_absorb_frame] at change
    exact absurd change (by simp)

theorem effect_tout_writer (change : (effect p.instr s).tout ≠ s.tout) : p = .final ∨ p = .finalK := by
  cases p with
  | final => exact .inl rfl
  | finalK => exact .inr rfl
  | nop | init | perm => exact absurd rfl change
  | absorb n d =>
    rw [Pending.instr, effect_absorb_frame] at change
    exact absurd rfl change

theorem effect_tag_writer (change : (effect p.instr s).tag ≠ s.tag) :
    (∃ k, p = .init k) ∨ (∃ n d, p = .absorb n d) ∨ p = .final ∨ p = .perm := by
  cases p with
  | init k => exact .inl ⟨k, rfl⟩
  | absorb n d => exact .inr (.inl ⟨n, d, rfl⟩)
  | final => exact .inr (.inr (.inl rfl))
  | perm => exact .inr (.inr (.inr rfl))
  | nop | finalK => exact absurd rfl change

theorem effect_buf_writer (change : (effect p.instr s).buf ≠ s.buf) : (∃ n d, p = .absorb n d) ∨ p = .final := by
  cases p with
  | absorb n d => exact .inl ⟨n, d, rfl⟩
  | final => exact .inr rfl
  | nop | init | finalK | perm => exact absurd rfl change

theorem effect_count_writer (change : (effect p.instr s).count ≠ s.count) :
    (∃ k, p = .init k) ∨ ∃ n d, p = .absorb n d := by
  cases p with
  | init k => exact .inl ⟨k, rfl⟩
  | absorb n d => exact .inr ⟨n, d, rfl⟩
  | nop | final | finalK | perm => exact absurd rfl change

end

/-- t has the elements of s that commands alone write, and its round count. -/
structure State.SameDatapath (s t : State) : Prop where
  tag : t.tag = s.tag
  k1 : t.k1 = s.k1
  k2 : t.k2 = s.k2
  tout : t.tout = s.tout
  buf : t.buf = s.buf
  count : t.count = s.count
  rounds : t.rounds = s.rounds

theorem State.SameDatapath.of_takeTurn {s t : State} (h : s.takeTurn.SameDatapath t) : s.SameDatapath t :=
  ⟨h.tag.trans s.takeTurn_tag, h.k1.trans s.takeTurn_k1, h.k2.trans s.takeTurn_k2, h.tout.trans s.takeTurn_tout,
    h.buf.trans s.takeTurn_buf, h.count.trans s.takeTurn_count, h.rounds.trans s.takeTurn_rounds⟩

theorem State.reject_sameDatapath (s : State) (e : ErrCode) : s.SameDatapath (s.reject e) := by
  rw [s.reject_frame e]
  exact ⟨rfl, rfl, rfl, rfl, rfl, rfl, rfl⟩

theorem State.writeReg_sameDatapath (s : State) (r : Reg) (v : Word) : s.SameDatapath (s.writeReg r v) := by
  by_cases cmd : r = .cmd
  · rw [cmd, State.writeReg]
    obtain ⟨i, -, -, -, accepted⟩ | ⟨e, rejected⟩ := s.presentCommand_cases v
    · rw [accepted]
      exact ⟨rfl, rfl, rfl, rfl, rfl, rfl, rfl⟩
    · rw [rejected]
      exact s.reject_sameDatapath e
  · rw [State.writeReg_frame r v s cmd]
    exact ⟨rfl, rfl, rfl, rfl, rfl, rfl, rfl⟩

section
variable {s t : State}

theorem State.hostStep_sameDatapath {e : Event} {rest : List Event} (he : s.events = e :: rest) (noReset : e ≠ .reset)
    (h : s.hostStep = .next t) : s.SameDatapath t := by
  obtain ⟨off, v, r, -, -, -, rfl⟩ | ⟨off, r, -, -, -, rfl⟩ | ⟨-, rfl⟩ | ⟨reset, -⟩ := State.hostStep_cases he h
  · obtain ⟨tag, k1, k2, tout, buf, count, rounds⟩ := State.writeReg_sameDatapath { s with events := rest } r v
    exact ⟨tag, k1, k2, tout, buf, count, rounds⟩
  · rw [State.afterRead_eq]
    exact ⟨rfl, rfl, rfl, rfl, rfl, rfl, rfl⟩
  · rw [State.hostWait_eq]
    exact ⟨rfl, rfl, rfl, rfl, rfl, rfl, rfl⟩
  · exact absurd reset noReset

/-- Without a reset, the datapath changes by the effect of the command in PEND or not at all. -/
theorem step_datapath (h : step s = .next t) (noReset : ¬ ∃ rest, s.HostMoves .reset rest) :
    s.SameDatapath t ∨ ∃ p, s.EngineMoves p ∧ t = (effect p.instr s.takeTurn).complete := by
  obtain ⟨-, rfl⟩ | ⟨p, moves, u, hx, rfl⟩ | ⟨e, rest, moves, hs⟩ := step_cases h
  · exact .inl ⟨rfl, rfl, rfl, rfl, rfl, rfl, rfl⟩
  · obtain effective | ⟨e, rejected⟩ := exec_effect_or_reject p.instr s.takeTurn
    · rw [effective] at hx
      cases hx
      exact .inr ⟨p, moves, rfl⟩
    · rw [rejected] at hx
      cases hx
      obtain ⟨tag, k1, k2, tout, buf, count, rounds⟩ := (s.takeTurn.reject_sameDatapath e).of_takeTurn
      exact .inl ⟨tag, k1, k2, tout, buf, count, rounds⟩
  · have same := State.hostStep_sameDatapath (s.takeTurn_events.trans moves.2)
      (fun reset => noReset ⟨rest, reset ▸ moves⟩) hs
    exact .inl same.of_takeTurn

theorem State.presentCommand_hostOperands (c : Word) (s : State) :
    (s.presentCommand c).key = s.key ∧ (s.presentCommand c).din = s.din := by
  obtain ⟨i, -, -, -, accepted⟩ | ⟨e, rejected⟩ := s.presentCommand_cases c
  · rw [accepted]
    exact ⟨rfl, rfl⟩
  · rw [rejected]
    exact ⟨s.reject_key e, s.reject_din e⟩

theorem State.writeReg_key {r : Reg} {v : Word} (change : (s.writeReg r v).key ≠ s.key) : ∃ j, r = .key j := by
  cases r with
  | key j => exact ⟨j, rfl⟩
  | cmd => exact absurd (s.presentCommand_hostOperands v).1 change
  | status => exact absurd (by rw [State.writeReg]; split <;> rfl) change
  | din | cfg | tag | k1 | k2 | tout | countLo | countHi | reserved => exact absurd rfl change

theorem State.writeReg_din {r : Reg} {v : Word} (change : (s.writeReg r v).din ≠ s.din) : r = .din := by
  cases r with
  | din => rfl
  | cmd => exact absurd (s.presentCommand_hostOperands v).2 change
  | status => exact absurd (by rw [State.writeReg]; split <;> rfl) change
  | key | cfg | tag | k1 | k2 | tout | countLo | countHi | reserved => exact absurd rfl change

/-- Without a reset, KEY and DIN change by a register write or not at all. -/
theorem step_hostOperands (h : step s = .next t) (noReset : ¬ ∃ rest, s.HostMoves .reset rest) :
    (t.key = s.key ∧ t.din = s.din) ∨ ∃ r v rest, s.HostMoves (.write r.offset 4 v) rest ∧
      t = State.writeReg r v (s.afterEvent rest) := by
  obtain ⟨-, rfl⟩ | ⟨p, moves, u, hx, rfl⟩ | ⟨e, rest, moves, hs⟩ := step_cases h
  · exact .inl ⟨rfl, rfl⟩
  · obtain ⟨v, hv, key, din, -⟩ := everyCommandAnswersWithItsFrame p.instr s.takeTurn
    rw [hx] at hv
    cases hv
    exact .inl ⟨key.trans s.takeTurn_key, din.trans s.takeTurn_din⟩
  · have taken : s.takeTurn.events = e :: rest := s.takeTurn_events.trans moves.2
    obtain ⟨off, v, r, rfl, -, hr, rfl⟩ | ⟨off, r, -, -, -, rfl⟩ | ⟨-, rfl⟩ | ⟨rfl, -⟩ := State.hostStep_cases taken hs
    · rw [← Reg.offset_of_ofOffset hr] at moves
      exact .inr ⟨r, v, rest, moves, rfl⟩
    · rw [State.afterRead_eq]
      exact .inl ⟨s.takeTurn_key, s.takeTurn_din⟩
    · rw [State.hostWait_eq]
      exact .inl ⟨s.takeTurn_key, s.takeTurn_din⟩
    · exact absurd ⟨rest, moves⟩ noReset

theorem step_key_writer (h : step s = .next t) (noReset : ¬ ∃ rest, s.HostMoves .reset rest) (change : t.key ≠ s.key) :
    ∃ (j : Fin 4) (v : Word) (rest : List Event), s.HostMoves (.write (0x10 + 4 * j.val) 4 v) rest := by
  obtain ⟨key, -⟩ | ⟨r, v, rest, moves, rfl⟩ := step_hostOperands h noReset
  · exact absurd key change
  · obtain ⟨j, rfl⟩ := State.writeReg_key (s := s.afterEvent rest) fun same => change (same.trans s.takeTurn_key)
    exact ⟨j, v, rest, moves⟩

theorem step_din_writer (h : step s = .next t) (noReset : ¬ ∃ rest, s.HostMoves .reset rest) (change : t.din ≠ s.din) :
    ∃ (v : Word) (rest : List Event), s.HostMoves (.write 0x08 4 v) rest := by
  obtain ⟨-, din⟩ | ⟨r, v, rest, moves, rfl⟩ := step_hostOperands h noReset
  · exact absurd din change
  · obtain rfl := State.writeReg_din (s := s.afterEvent rest) fun same => change (same.trans s.takeTurn_din)
    exact ⟨v, rest, moves⟩

end

/-- Settles O6: KEY and DIN by the host's writes, the rest by the command whose effect changes it. -/
theorem onlyItsWritersChangeAnElement : Obligations.OnlyItsWritersChangeAnElement := by
  refine fun s t h noReset => ⟨step_key_writer h noReset, step_din_writer h noReset, ?_⟩
  obtain same | ⟨p, moves, rfl⟩ := step_datapath h noReset
  · exact ⟨fun change => absurd change (by simp [same.k1, same.k2]), fun change => absurd same.tout change,
      fun change => absurd same.tag change, fun change => absurd same.buf change,
      fun change => absurd same.count change, same.rounds⟩
  · refine ⟨fun change => ?_, fun change => ?_, fun change => ?_, fun change => ?_, fun change => ?_, ?_⟩
    · obtain ⟨k, rfl⟩ := effect_subkey_writer (s := s.takeTurn) (by simpa using change)
      exact ⟨k, moves⟩
    · obtain rfl | rfl := effect_tout_writer (s := s.takeTurn) (by simpa using change)
      · exact .inl moves
      · exact .inr moves
    · obtain ⟨k, rfl⟩ | ⟨n, d, rfl⟩ | rfl | rfl := effect_tag_writer (s := s.takeTurn) (by simpa using change)
      · exact .inl ⟨k, moves⟩
      · exact .inr (.inl ⟨n, d, moves⟩)
      · exact .inr (.inr (.inl moves))
      · exact .inr (.inr (.inr moves))
    · obtain ⟨n, d, rfl⟩ | rfl := effect_buf_writer (s := s.takeTurn) (by simpa using change)
      · exact .inl ⟨n, d, moves⟩
      · exact .inr moves
    · obtain ⟨k, rfl⟩ | ⟨n, d, rfl⟩ := effect_count_writer (s := s.takeTurn) (by simpa using change)
      · exact .inl ⟨k, moves⟩
      · exact .inr ⟨n, d, moves⟩
    · rw [State.complete_rounds, effect_frame, State.takeTurn_rounds]

end Sys2Proof.Machine
end

