-- ==== Sys2Proof/Proofs/Registers.lean ====
section
/-! PROOFS of the statements about the registers of the window (20_memory.md R45 to R56, R61, R63). A host read of any
register is one step, and what it returns is `readValue`; the statements say of each register what that is, and of each
write which element it sets. -/

namespace Sys2Proof.Machine

/-! ## The map (R46) -/

theorem Reg.offset_inWindow (r : Reg) : r.offset % 4 = 0 ∧ r.offset ≤ 0x7C := by
  cases r with
  | cmd | status | din | cfg | countLo | countHi => decide
  | key j | tag j | k1 j | k2 j | tout j | reserved j => simp only [Reg.offset]; omega

/-- Settles O7: `ofOffset` and `offset` undo each other, and every aligned offset of the window has a register. -/
theorem registerMapIsOneToOne : Obligations.RegisterMapIsOneToOne := by
  refine ⟨fun off r => ⟨fun h => (Reg.offset_of_ofOffset h).symm, ?_⟩, fun off => ⟨fun h => ?_, ?_⟩⟩
  · rintro rfl
    exact r.ofOffset_offset
  · obtain ⟨r, hr⟩ := Option.isSome_iff_exists.1 h
    rw [← Reg.offset_of_ofOffset hr]
    exact r.offset_inWindow
  · rintro ⟨aligned, inWindow⟩
    exact Option.isSome_iff_exists.2 (Reg.exists_ofOffset aligned inWindow)

/-! ## Accesses past the window (log 6) -/

theorem accessedReg_of_past {off : Nat} (aligned : off % 4 = 0) (past : 0x80 ≤ off) :
    accessedReg off 4 = .fault (.outsideWindow off) := by
  have noReg : Reg.ofOffset off = none := by
    rw [Option.eq_none_iff_forall_ne_some]
    intro r hr
    have inWindow := r.offset_inWindow
    rw [Reg.offset_of_ofOffset hr] at inWindow
    omega
  rw [accessedReg, if_neg (by omega), noReg]

/-- Settles O14: no register stands past the window. -/
theorem accessPastTheWindowFaults : Obligations.AccessPastTheWindowFaults := by
  refine fun s rest off v aligned past => ⟨fun moves => ?_, fun moves => ?_⟩ <;>
    rw [step_of_host moves]
  · simp only [State.hostStep, State.takeTurn_events, moves.2, State.hostWrite, accessedReg_of_past aligned past]
  · simp only [State.hostStep, State.takeTurn_events, moves.2, State.hostRead, accessedReg_of_past aligned past]

/-! ## Reads (R61, R63) -/

theorem State.afterRead_draws (s : State) : s.afterRead.draws = if s.busy then s.draws + 1 else s.draws := by
  unfold State.afterRead
  split <;> rfl

/-- Settles O55: the read of a register, by its offset. -/
theorem hostReadAppendsTheRegister : Obligations.HostReadAppendsTheRegister := by
  intro s r rest moves
  rw [step_read moves r.offset_inWindow.1 r.ofOffset_offset, State.afterRead_draws]

section
variable {s : State} {off : Nat} {rest : List Event} {r : Reg} (moves : s.HostMoves (.read off 4) rest)
  (aligned : off % 4 = 0) (hr : Reg.ofOffset off = some r)
include moves aligned hr

theorem step_read_of_idle (idle : s.busy = false) :
    step s = .next { s.afterEvent rest with got := s.got ++ [s.peek r] } := by
  have draws : s.afterRead.draws = (s.afterEvent rest).draws := by
    rw [State.afterRead_draws, idle]
    exact s.takeTurn_draws.symm
  have value : s.readValue r = s.peek r := by rw [State.readValue, idle]; rfl
  rw [step_read moves aligned hr, draws, value]

theorem step_read_of_busy (busy : s.busy = true) :
    step s = .next { s.afterEvent rest with draws := s.draws + 1, got := s.got ++ [s.readValue r] } := by
  rw [step_read moves aligned hr, State.afterRead_draws, if_pos busy]

end

/-! ## STATUS (R48) -/

section
variable (busy err : Bool) (code : BitVec 3) (fsm : BitVec 2) (fill : BitVec 4)

theorem statusLayout_err : (statusLayout busy err code fsm fill).getLsbD 1 = err := by
  simp only [statusLayout, BitVec.getLsbD_append]
  cases err <;> simp

theorem statusLayout_bit7 : (statusLayout busy err code fsm fill).getLsbD 7 = false := by
  simp only [statusLayout, BitVec.getLsbD_append]
  simp

/-- Bits 31:2 stand above BUSY and ERR. -/
theorem statusLayout_above_flags (start len : Nat) :
    (statusLayout busy err code fsm fill).extractLsb' (start + 2) len =
      ((0 : BitVec 16) ++ fill ++ (0 : BitVec 2) ++ fsm ++ (0 : BitVec 1) ++ code ++ (0 : BitVec 2)).extractLsb' start
        len :=
  (BitVec.extractLsb'_append_eq_of_le (by omega)).trans (BitVec.extractLsb'_append_eq_of_le (by omega))

theorem statusLayout_reserved2 : (statusLayout busy err code fsm fill).extractLsb' 2 2 = 0 :=
  (statusLayout_above_flags busy err code fsm fill 0 2).trans BitVec.extractLsb'_append_eq_right

theorem statusLayout_code : (statusLayout busy err code fsm fill).extractLsb' 4 3 = code :=
  (statusLayout_above_flags busy err code fsm fill 2 3).trans <|
    (BitVec.extractLsb'_append_eq_of_le (by decide)).trans BitVec.extractLsb'_append_eq_right

/-- Bits 31:8 stand above the error record. -/
theorem statusLayout_above_record (start len : Nat) :
    (statusLayout busy err code fsm fill).extractLsb' (start + 6 + 2) len =
      ((0 : BitVec 16) ++ fill ++ (0 : BitVec 2) ++ fsm).extractLsb' start len :=
  (statusLayout_above_flags busy err code fsm fill (start + 6) len).trans <|
    (BitVec.extractLsb'_append_eq_of_le (by omega)).trans <|
    (BitVec.extractLsb'_append_eq_of_le (by omega)).trans (BitVec.extractLsb'_append_eq_of_le (by omega))

theorem statusLayout_fsm : (statusLayout busy err code fsm fill).extractLsb' 8 2 = fsm :=
  (statusLayout_above_record busy err code fsm fill 0 2).trans BitVec.extractLsb'_append_eq_right

theorem statusLayout_reserved10 : (statusLayout busy err code fsm fill).extractLsb' 10 2 = 0 :=
  (statusLayout_above_record busy err code fsm fill 2 2).trans <|
    (BitVec.extractLsb'_append_eq_of_le (by decide)).trans BitVec.extractLsb'_append_eq_right

theorem statusLayout_fill : (statusLayout busy err code fsm fill).extractLsb' 12 4 = fill :=
  (statusLayout_above_record busy err code fsm fill 4 4).trans <|
    (BitVec.extractLsb'_append_eq_of_le (by decide)).trans <|
    (BitVec.extractLsb'_append_eq_of_le (by decide)).trans BitVec.extractLsb'_append_eq_right

theorem statusLayout_reserved16 : (statusLayout busy err code fsm fill).extractLsb' 16 16 = 0 :=
  (statusLayout_above_record busy err code fsm fill 8 16).trans <|
    (BitVec.extractLsb'_append_eq_of_le (by decide)).trans <|
    (BitVec.extractLsb'_append_eq_of_le (by decide)).trans BitVec.extractLsb'_append_eq_left

end

/-- The FSM and FILL fields a read of STATUS returns: their own, or while BUSY = 1 bits of the free draw (log 5). -/
theorem State.readValue_status (s : State) : s.readValue .status = statusLayout s.busy s.err s.errCode.code
    (if s.busy then (Config.freeRead s.draws).extractLsb' 8 2 else s.fsm.code)
    (if s.busy then (Config.freeRead s.draws).extractLsb' 12 4 else s.fill) := by
  unfold State.readValue
  split <;> rfl

theorem State.fill_toNat (s : State) : s.fill.toNat = s.count.toNat % 16 := by
  simp [State.fill]

/-- Settles O8: field by field of the layout. -/
theorem statusReadsByItsLayout : Obligations.StatusReadsByItsLayout := by
  refine ⟨fun s => ?_, by decide⟩
  rw [s.readValue_status]
  refine ⟨statusLayout_busy .., statusLayout_err .., statusLayout_reserved2 .., statusLayout_code ..,
    statusLayout_bit7 .., fun idle => ?_, statusLayout_reserved10 .., fun idle => ?_, statusLayout_reserved16 .., fun busy => ?_⟩
  · rw [statusLayout_fsm, idle]
    rfl
  · rw [statusLayout_fill, idle]
    exact s.fill_toNat
  · rw [statusLayout_fsm, statusLayout_fill, busy]
    exact ⟨rfl, rfl⟩

/-! ## Reads during a command (R63) -/

theorem State.readValue_of_free {s : State} {r : Reg} (busy : s.busy = true)
    (free : 0x20 ≤ r.offset ∧ r.offset ≤ 0x64) : s.readValue r = Config.freeRead s.draws := by
  rw [State.readValue, if_pos busy]
  cases r with
  | cmd | status | din | cfg => simp [Reg.offset] at free
  | key j | reserved j => simp only [Reg.offset] at free; omega
  | tag | k1 | k2 | tout | countLo | countHi => rfl

theorem State.readValue_of_defined (s : State) {r : Reg}
    (defined : r.offset ∈ [0x00, 0x08, 0x0C, 0x10, 0x14, 0x18, 0x1C] ∨ 0x68 ≤ r.offset) :
    s.readValue r = ({ s with busy := false } : State).readValue r := by
  have idle : ({ s with busy := false } : State).readValue r = ({ s with busy := false } : State).peek r := rfl
  rw [idle, State.readValue]
  cases r with
  | cmd | din | cfg | key | reserved => exact ite_self _
  | status | countLo | countHi => simp [Reg.offset] at defined
  | tag j | k1 j | k2 j | tout j => simp [Reg.offset] at defined; omega

/-- Settles O18: by the offset, a free register, STATUS, or one no command writes. -/
theorem busyReadsReturnAnyValue : Obligations.BusyReadsReturnAnyValue := by
  intro s rest off busy aligned moves
  refine ⟨fun free => ?_, ?_, fun r hr defined => ?_⟩
  · obtain ⟨r, hr⟩ := Reg.exists_ofOffset aligned (by omega)
    rw [step_read_of_busy moves aligned hr busy, State.readValue_of_free busy (Reg.offset_of_ofOffset hr ▸ free)]
  · rintro rfl
    refine ⟨_, step_read_of_busy moves aligned (r := .status) rfl busy, ?_⟩
    rw [s.readValue_status, busy]
    exact ⟨statusLayout_busy .., statusLayout_err .., statusLayout_reserved2 .., statusLayout_code ..,
      statusLayout_bit7 .., statusLayout_fsm .., statusLayout_reserved10 .., statusLayout_fill ..,
      statusLayout_reserved16 ..⟩
  · rw [← s.readValue_of_defined (Reg.offset_of_ofOffset hr ▸ defined)]
    exact ⟨_, step_read moves aligned hr, rfl⟩

/-! ## DIN and KEY (R50, R51) -/

section
variable {s : State} {rest : List Event} {v : Word}

theorem step_write_key {off : Nat} {j : Fin 4} (moves : s.HostMoves (.write off 4 v) rest)
    (hr : off = (Reg.key j).offset) :
    step s = .next { s.afterEvent rest with key := s.key.setWord j v } := by
  subst hr
  rw [step_write moves (Reg.key j).offset_inWindow.1 (Reg.key j).ofOffset_offset, State.writeReg, State.takeTurn_key]

theorem step_read_got {off : Nat} {r : Reg} (moves : s.HostMoves (.read off 4) rest) (hr : off = r.offset)
    (value : s.readValue r = v) : ∃ t, step s = .next t ∧ t.got = s.got ++ [v] := by
  subst hr value
  exact ⟨_, step_read moves r.offset_inWindow.1 r.ofOffset_offset, rfl⟩

end

/-- Settles O10: the write and the read of DIN, and of each word of KEY. -/
theorem dinAndKeyAreWrittenAndReadBack : Obligations.DinAndKeyAreWrittenAndReadBack := by
  intro s rest v
  have din : s.readValue .din = s.din := ite_self _
  have key (j : Fin 4) : s.readValue (.key j) = s.key.word j := ite_self _
  exact ⟨fun moves => step_write (r := .din) moves rfl rfl,
    fun moves => step_write_key (j := 0) moves rfl, fun moves => step_write_key (j := 1) moves rfl,
    fun moves => step_write_key (j := 2) moves rfl, fun moves => step_write_key (j := 3) moves rfl,
    fun moves => step_read_got (r := .din) moves rfl din, fun moves => step_read_got (r := .key 0) moves rfl (key 0),
    fun moves => step_read_got (r := .key 1) moves rfl (key 1),
    fun moves => step_read_got (r := .key 2) moves rfl (key 2),
    fun moves => step_read_got (r := .key 3) moves rfl (key 3)⟩

/-! ## CFG, TAG, K1, K2, TOUT and COUNT (R52 to R56) -/

theorem State.peek_count (s : State) :
    s.peek .countLo = BitVec.ofNat 32 (s.count.toNat % 2 ^ 32) ∧
    s.peek .countHi = BitVec.ofNat 32 (s.count.toNat / 2 ^ 32) := by
  constructor <;> apply BitVec.eq_of_toNat_eq <;>
    simp [State.peek, Nat.shiftRight_eq_div_pow]

/-- Settles O11: the read of each register, on an idle core but for CFG, and the write that is ignored. -/
theorem readOnlyRegistersReadAndIgnoreWrites : Obligations.ReadOnlyRegistersReadAndIgnoreWrites := by
  intro s rest j v
  have aligned (n : Nat) (h : n % 4 = 0) : (n + 4 * j.val) % 4 = 0 := by omega
  refine ⟨fun moves => ?_, fun idle => ⟨?_, ?_, ?_, ?_, ?_, ?_⟩, fun off readOnly moves => ?_⟩
  · have value : s.readValue .cfg = BitVec.ofNat 32 (roundCount s.rounds) := ite_self _
    refine ⟨_, step_read (r := .cfg) moves rfl rfl, by simp [State.SameCore], ?_⟩
    rw [value]
    cases s.rounds <;> rfl
  · exact fun moves => step_read_of_idle moves (aligned _ rfl) (Reg.tag j).ofOffset_offset idle
  · exact fun moves => step_read_of_idle moves (aligned _ rfl) (Reg.k1 j).ofOffset_offset idle
  · exact fun moves => step_read_of_idle moves (aligned _ rfl) (Reg.k2 j).ofOffset_offset idle
  · exact fun moves => step_read_of_idle moves (aligned _ rfl) (Reg.tout j).ofOffset_offset idle
  · exact fun moves => s.peek_count.1 ▸ step_read_of_idle moves rfl Reg.countLo.ofOffset_offset idle
  · exact fun moves => s.peek_count.2 ▸ step_read_of_idle moves rfl Reg.countHi.ofOffset_offset idle
  · have place : off % 4 = 0 ∧ off ≤ 0x7C ∧ (off = 0x0C ∨ 0x20 ≤ off) := by
      simp only [List.mem_cons, List.not_mem_nil, or_false] at readOnly
      omega
    obtain ⟨wordAligned, inWindow, noWriter⟩ := place
    obtain ⟨r, hr⟩ := Reg.exists_ofOffset wordAligned inWindow
    rw [step_write moves wordAligned hr, State.writeReg_of_readOnly v _ (Reg.offset_of_ofOffset hr ▸ noWriter)]

end Sys2Proof.Machine
end
